-- ==== Sys2Proof/Word.lean ====
section
/-!
DEFINITION. The three plain bit-vector types of CMAC-CORE: the byte, the 32-bit word of the host
port and the 16-byte Block (spec/00_scope.md R13, R14). How bytes and words sit inside a Block is in
Machine/Blocks.lean.
-/

namespace Sys2Proof

/-- A byte is 8 bits (R14). -/
abbrev Byte := BitVec 8

/-- A word of the host port; every counter and length register is one too (R13). -/
abbrev Word := BitVec 32

/-- A Block is 16 bytes, read as a 128-bit big-endian number: byte 0 is the most significant (R14). -/
abbrev Block := BitVec 128

/-- `Z16`, the Block of sixteen zero bytes (R16). -/
def zeroBlock : Block := 0#128

end Sys2Proof
end

