-- ==== Sys2Proof/Syntax.lean ====
section
/-!
DEFINITION. The command set of CMAC-CORE: the two rows of spec/opcode_table.json (R2, R126).
-/

namespace Sys2Proof

/-- The two host commands. The operands are the unsigned numbers of the command word, "used as they
stand" (R123, R124); `Instr.wellFormed` says that they fit their fields. -/
inductive Instr where
  /-- `PREPARE KEYLEN` (R220): check the key length and derive the subkeys. -/
  | prepare (keylen : Nat)
  /-- `MAC CTX` (R228): compute the tag of the message of one context. -/
  | mac (ctx : Nat)
deriving DecidableEq, Repr

end Sys2Proof
end

