-- ==== Sys2Proof/WellFormed.lean ====
section
/-!
DEFINITION. Which instructions have a command word: those whose operand fits its 8-bit field (R121,
R123, R124).
-/

namespace Sys2Proof

/-- `KEYLEN` is "an unsigned number 0 to 255" (R123) and `CTX` is "unsigned, 0 to 255" (R124). An
illegal key length such as 10 and a context at or above NCTX are well formed (R123, R124). -/
def Instr.wellFormed : Instr → Bool
  | .prepare keylen => decide (keylen < 256)
  | .mac ctx => decide (ctx < 256)

end Sys2Proof
end

