-- ==== Sys2Proof/Decode.lean ====
section
/-!
DEFINITION. The command word: its decoder, total on all 32-bit words (R128), and its encoder, both
written from spec/30_encoding.md R121 to R128. A command is one 32-bit number (R120), which has no
byte order at the host port (R75).
-/

namespace Sys2Proof

/-- Why a word is no command; both are answered with `BAD_ENCODING` (R127, R128). -/
inductive DecodeError where
  /-- `OPC` is 0x00 or 0x03 to 0xFF (R127). -/
  | reservedOpcode
  /-- `OPC` is 0x01 or 0x02 and a bit of the reserved field is set (R128). -/
  | reservedField
deriving DecidableEq, Repr

/-- `OPC`, bits [31:24] (R122). -/
def opcodeField (w : Word) : BitVec 8 := w.extractLsb' 24 8

/-- `KEYLEN` of format P, bits [7:0] (R123). -/
def keylenField (w : Word) : BitVec 8 := w.extractLsb' 0 8

/-- `CTX` of format M, bits [23:16] (R124). -/
def ctxField (w : Word) : BitVec 8 := w.extractLsb' 16 8

/-- The match value of `PREPARE` (R126). -/
def prepareMatch : Word := 0x01000000#32

/-- The mask of `PREPARE` (R126). -/
def prepareMask : Word := 0xFFFFFF00#32

/-- The match value of `MAC` (R126). -/
def macMatch : Word := 0x02000000#32

/-- The mask of `MAC` (R126). -/
def macMask : Word := 0xFF00FFFF#32

/-- "A word v selects a row when `v & mask = match`" (R126); every other word is reserved, by its
opcode (R127) or by its reserved field (R128). -/
def decode (w : Word) : Except DecodeError Instr :=
  if w &&& prepareMask = prepareMatch then .ok (.prepare (keylenField w).toNat)
  else if w &&& macMask = macMatch then .ok (.mac (ctxField w).toNat)
  else if opcodeField w = 0x01#8 ∨ opcodeField w = 0x02#8 then .error .reservedField
  else .error .reservedOpcode

/-- The command word of an instruction, field by field from the most significant (R121). -/
def encode : Instr → Word
  | .prepare keylen => 0x01#8 ++ 0x0000#16 ++ BitVec.ofNat 8 keylen
  | .mac ctx => 0x02#8 ++ BitVec.ofNat 8 ctx ++ 0x0000#16

/-- The instruction the decoder reads from a table row's word. Both rows have 32 bits; a shorter word has
zeros above, and a longer one, or one that does not fit its length, is none of them
(notes/assumptions/24.md). -/
def decodeTableWord (nbits w : Nat) : Option Instr :=
  if nbits ≤ 32 ∧ w < 2 ^ nbits then
    match decode (BitVec.ofNat 32 w) with
    | .ok i => some i
    | .error _ => none
  else none

end Sys2Proof
end

