-- ==== Sys2Proof/Machine/Blocks.lean ====
section
/-!
DEFINITION. Blocks as bytes, words and 128-bit numbers (spec/00_scope.md R14, R15), and the Block
Algebra, OPJ's first component: `XORINTO` and `DOUBLE` (spec/40_block_algebra.md). Both are
combinational: no flag, no error, no state (R41, R150, R152).
-/

namespace Sys2Proof.Machine

/-- `B[i]`, byte i of a Block: `bits[127-8i : 120-8i]` (R14). -/
def blockByte (b : Block) (i : Nat) : Byte := b.extractLsb' (120 - 8 * i) 8

/-- `W[k]`, word k of a Block: bytes 4k to 4k+3, the first in bits [31:24] (R15). -/
def blockWord (b : Block) (k : Nat) : Word := b.extractLsb' (96 - 32 * k) 32

/-- Byte j of a word, the first in bits [31:24]: `v[31-8j : 24-8j]` (R75, R83). -/
def wordByte (v : Word) (j : Nat) : Byte := v.extractLsb' (24 - 8 * j) 8

/-- Put one byte behind the bytes of a value, at its less significant end (R14, R16 `‖`). -/
def appendByte (acc : Block) (b : Byte) : Block := (acc <<< 8) ||| b.setWidth 128

/-- The Block whose bytes are `f 0` to `f 15`, first byte first (R14). -/
def blockOfBytes (f : Nat → Byte) : Block :=
  (List.range 16).foldl (fun acc i => appendByte acc (f i)) zeroBlock

/-- The word whose bytes are `f 0` to `f 3`, the first in bits [31:24] (R75). -/
def wordOfBytes (f : Nat → Byte) : Word := f 0 ++ f 1 ++ f 2 ++ f 3

/-- The sixteen bytes of a Block, first byte first (R14). -/
def blockBytes (b : Block) : List Byte := (List.range 16).map (blockByte b)

/-- `XORINTO(D, S)` (R150): exclusive-or on the 128-bit values. -/
def xorInto (d s : Block) : Block := d ^^^ s

/-- `rep_N(b)`, the bit b copied 8 times (R16). -/
def repByte (b : Bool) : Byte := if b then 0xFF#8 else 0x00#8

/-- The reduction constant 0x87 (R11, R154). -/
def reductionByte : Byte := 0x87#8

/-- `DOUBLE(B)` (R152): shift left by one position, and exclusive-or the constant 0x87 into the last
byte when the dropped bit was 1, selected by a mask. -/
def double (b : Block) : Block :=
  let mask := repByte (b.getLsbD 127)
  let r := (reductionByte &&& mask).setWidth 128
  (b <<< 1) ^^^ r

/-- `XORINTO` in its tail form (R151): the last 16 bytes of a longer buffer are exclusive-ored with a
Block, the bytes before them are unchanged. -/
def xorTail (x : List Byte) (s : Block) : List Byte :=
  x.take (x.length - 16) ++ List.zipWith (fun a b => a ^^^ b) (x.drop (x.length - 16)) (blockBytes s)

end Sys2Proof.Machine
end

