-- ==== Sys2Proof/Config.lean ====
section
/-!
DEFINITION. What an instance of CMAC-CORE fixes and what the spec leaves free. A value the spec
leaves free is an `opaque` constant without a body: nothing in Lean can evaluate it, so a theorem
holds whatever it is. The parameters NCTX and MSGCAP are not here: State carries them, so every
statement about all states is about all their values (notes/assumptions/1.md).
-/

namespace Sys2Proof

/-- The identification word `ID`, ASCII "CMAC" (R3, R44). -/
def Config.idWord : Word := 0x434D4143#32

/-- NCTX of the instance that `State.reset` describes. DESIGN CHOICE (notes/assumptions/1.md):
the value of the spec's test vectors (D40); R12 leaves 1 to 32 open. Unsafe for a statement about
`State.reset` alone, safe for one about every state. -/
def Config.referenceContexts : Nat := 2

/-- MSGCAP of the instance that `State.reset` describes. DESIGN CHOICE (notes/assumptions/1.md),
as `Config.referenceContexts`. -/
def Config.referenceCapacity : Word := 4096#32

/-- `E(keylen, key, X)`, the block function of the external cipher provider: any total function
(R7, D21, notes/assumptions/4.md). Safe: nothing is known of it. -/
opaque Config.cipher : BitVec 8 → List Byte → Block → Block

/-- The failure draw of the n-th provider answer: free (R104, notes/assumptions/5.md). Safe. -/
opaque Config.providerFails : Nat → Bool

/-- The Block of the n-th provider answer when it failed: it "has no meaning" (R98, U17,
notes/assumptions/6.md). Safe. -/
opaque Config.failedBlock : Nat → Block

/-- What a message byte that the host has not written since reset holds: unspecified, possibly
different on every reset (R62, R88, notes/assumptions/7.md). The arguments are the number of resets
so far, the context and the address. Safe. -/
opaque Config.unwrittenByte : Nat → Nat → Nat → Byte

/-- The provider's chain value of a session after a reset: unspecified (R62, U18,
notes/assumptions/8.md). The arguments are the number of resets so far and the session's `sid`. Safe. -/
opaque Config.chainAtReset : Nat → Nat → Block

/-- Which of the enabled sequencer and provider steps is taken when the input says nothing: the
spec allows any order (R17, notes/assumptions/3.md). The argument counts the choices made. -/
opaque Config.pick : Nat → Nat

end Sys2Proof
end

