-- ==== Sys2Proof/Machine/State.lean ====
section
/-!
DEFINITION. The state of one CMAC-CORE instance: every element of spec/10_state.md R30, the
provider-port state of R59 and R60, the instance's parameters (R12), and five fields of the model's
own (the input, the last reply and three counters that index free values). Types only, and the state
after reset (R62); every operation is in the other files of Machine/.
-/

namespace Sys2Proof.Machine

/-- `PSTATE`, the preparation state (R34). Its codes are in Machine/Flags.lean. -/
inductive PrepState where
  | unprepared
  | preparing
  | prepared
  | fatal
deriving DecidableEq, Repr

/-- The error codes of `PERR` and `CERR[c]` (R132). Codes 4 to 15 are "never produced", so the field
is an enumeration (U20, notes/assumptions/23.md). -/
inductive ErrorCode where
  | noError
  | invalidKeyLength
  | providerFailure
  | malformedInput
deriving DecidableEq, Repr

/-- The rejection reasons of `REJ` (R133). Codes 7 to 15 are "never produced" (U20). -/
inductive Rejection where
  | accepted
  | badEncoding
  | fatalState
  | badState
  | badContext
  | contextBusy
  | badLength
deriving DecidableEq, Repr

/-- A request beat on the provider port (R97), without its `sid`, which is the slot it stands in. -/
structure Request where
  first : Bool
  last : Bool
  keylen : BitVec 8
  key : List Byte
  block : Block
deriving DecidableEq, Repr

/-- The content of `INFL[s]` (R59): nothing, a request beat not yet answered, or a response beat not
yet taken. -/
inductive Slot where
  | empty
  | request (beat : Request)
  | response (err : Bool) (block : Block)
deriving DecidableEq, Repr

/-- One session of the provider port: the core's slot `INFL[s]` (R59) and the provider's own chain
value `CV[s]` (R60). -/
structure Port where
  infl : Slot
  cv : Block
deriving DecidableEq, Repr

/-- A message memory: its written bytes, addresses strictly rising (`Memory.wf` in Machine/Ops.lean).
An unlisted address has not been written since reset (R88). -/
abbrev Memory := List Host.Cell

/-- The state of one message context (R50, R51 to R58) with its port session. -/
structure Context where
  busy : Bool
  done : Bool
  cerr : ErrorCode
  msglen : Word
  msgptr : Word
  mem : Memory
  nblk : Word
  sent : Word
  rcvd : Word
  acc : Block
  port : Port
deriving DecidableEq, Repr

/-- A session of the provider port (R96): the derivation session `SID_DRV` or that of a context. -/
inductive Session where
  | derivation
  | context (c : Nat)
deriving DecidableEq, Repr

/-- The width of a host access; only 32 bits is served (R73). -/
inductive AccessWidth where
  | w8
  | w16
  | w32
  | w64
deriving DecidableEq, Repr

/-- What a host access does (R70). -/
inductive AccessOp where
  | read
  | write (v : Word)
deriving DecidableEq, Repr

/-- One access on the host port: a width, a 12-bit byte offset and the operation (R70, R73). -/
structure HostAccess where
  width : AccessWidth
  addr : BitVec 12
  op : AccessOp
deriving DecidableEq, Repr

/-- The response of a host access (R20, R134). -/
inductive Resp where
  | ok
  | err
deriving DecidableEq, Repr

/-- What a host access returns: `HostRead32` a pair, `HostWrite32` a response (R70). -/
inductive Reply where
  | read (resp : Resp) (data : Word)
  | write (resp : Resp)
deriving DecidableEq, Repr

/-- One thing that can happen next: a step of one of the three agents of R18, or the reset input.
A sequencer or provider event whose step is not enabled changes nothing (notes/assumptions/2.md). -/
inductive Event where
  | host (a : HostAccess)
  | sequencer (x : Session)
  | provider (x : Session)
  | reset
deriving DecidableEq, Repr

/-- The complete state. The fields from `input` on are the model's own, not the spec's. -/
structure State where
  /-- MSGCAP, a parameter of the instance (R12, R44); no step changes it. NCTX is `ctxs.length`. -/
  msgcap : Word
  /-- `PSTATE` (R34). -/
  pstate : PrepState
  /-- `KEY.b[0..31]` (R31). -/
  key : Vector Byte 32
  /-- `KEYLEN` (R32). -/
  keylen : BitVec 8
  /-- `K1` (R33). -/
  k1 : Block
  /-- `K2` (R33). -/
  k2 : Block
  /-- `PERR` (R35). -/
  perr : ErrorCode
  /-- `REJ` (R36). -/
  rej : Rejection
  /-- `DSENT` (R37). -/
  dsent : Bool
  /-- The derivation session: `INFL[SID_DRV]` and `CV[SID_DRV]` (R59, R60). -/
  drv : Port
  /-- The contexts 0 .. NCTX-1 (R50). -/
  ctxs : List Context
  /-- What happens next, in order: the host's accesses, resets, and the schedule of the other agents
  (R61 "the host's sequence of accesses is an input"; notes/assumptions/2.md). -/
  input : List Event
  /-- What the last host access returned (notes/assumptions/11.md). -/
  reply : Option Reply
  /-- How many resets there have been; the index of the free contents of storage. -/
  resets : Nat
  /-- How many answers the provider has given; the index of its free draws. -/
  draws : Nat
  /-- How many free scheduling choices have been made. -/
  picks : Nat
deriving DecidableEq, Repr

/-- Reasons a step stops the machine: none. The spec gives every step of every agent an effect:
errors are recorded in `PERR` and `CERR[c]`, rejections in `REJ`, refusals in the response (R250), and
none of them stops anything (notes/assumptions/12.md). Safe: nothing raises a fault. -/
inductive Fault where
deriving DecidableEq, Repr

/-- Reasons an instruction has no meaning in the model. -/
inductive Refusal where
  /-- Raised by an arm of `exec` whose instruction has no meaning yet; no arm is in that state.
  Safe: a refused instruction has no next state. -/
  | notModelled (mnemonic : String)
deriving DecidableEq, Repr

/-- A context after reset (R62); `cv` is the provider's unspecified chain value. -/
def Context.afterReset (cv : Block) : Context :=
  { busy := false, done := false, cerr := .noError, msglen := 0#32, msgptr := 0#32, mem := [],
    nblk := 0#32, sent := 0#32, rcvd := 0#32, acc := zeroBlock, port := { infl := .empty, cv := cv } }

/-- The state after reset number `resets` of an instance with `nctx` contexts of `msgcap` bytes
(R62, R290): everything zero and empty, `UNPREPARED`, the message memories and the provider's chain
values unspecified. -/
def State.afterReset (nctx : Nat) (msgcap : Word) (resets : Nat) : State :=
  { msgcap := msgcap, pstate := .unprepared, key := Vector.replicate 32 0#8, keylen := 0#8,
    k1 := zeroBlock, k2 := zeroBlock, perr := .noError, rej := .accepted, dsent := false,
    drv := { infl := .empty, cv := Config.chainAtReset resets 0xFF },
    ctxs := (List.range nctx).map fun c => Context.afterReset (Config.chainAtReset resets c),
    input := [], reply := none, resets := resets, draws := 0, picks := 0 }

/-- The machine right after power-on, which is a reset (R293): nothing happens until the host does
something (R291). NCTX and MSGCAP are those of the spec's test vectors (notes/assumptions/1.md). -/
def State.reset : State :=
  State.afterReset Config.referenceContexts Config.referenceCapacity 0

end Sys2Proof.Machine
end

