-- ==== Sys2Proof/Machine/Ops.lean ====
section
/-!
DEFINITION. The named operations over the state: message memory, contexts, sessions, the recording of
errors and rejections (spec/20_memory.md section 3, spec/60_exceptions.md section 2), and how an
outcome is carried on.
-/

namespace Sys2Proof.Machine

/-! ### Message memory -/

/-- The canonical form of a message memory: addresses strictly rising. An unlisted address holds no
value of its own, so no entry can equal what an unlisted address reads as (notes/assumptions/7.md). -/
abbrev Memory.wf (m : Memory) : Prop := m.Pairwise fun p q => p.1 < q.1

/-- The byte at an address, if the host has written it since reset (R88). -/
def Memory.read : Memory → Nat → Option Byte
  | [], _ => none
  | (a, b) :: rest, i => if i = a then some b else Memory.read rest i

/-- Store one byte, keeping the canonical form. -/
def Memory.write : Memory → Nat → Byte → Memory
  | [], i, v => [(i, v)]
  | (a, b) :: rest, i, v =>
    if i < a then (i, v) :: (a, b) :: rest
    else if i = a then (a, v) :: rest
    else (a, b) :: Memory.write rest i v

/-- Store a byte of a data-port write: below MSGCAP it is stored, else it is discarded (R82, R83). -/
def storeByte (msgcap : Word) (m : Memory) (a : Word) (v : Byte) : Memory :=
  if a < msgcap then m.write a.toNat v else m

/-! ### Contexts and sessions -/

/-- `SID_DRV` (R96). -/
def sidDerivation : Nat := 0xFF

/-- The session identifier `sid` on the provider port (R96, R135). -/
def sessionId : Session → Nat
  | .derivation => sidDerivation
  | .context c => c

/-- NCTX, the number of contexts (R12, R44). -/
def State.nctx (s : State) : Nat := s.ctxs.length

/-- Change context c, and nothing else (R50); a context that does not exist is not changed. -/
def State.updateCtx (s : State) (c : Nat) (f : Context → Context) : State :=
  { s with ctxs := s.ctxs.modify c f }

/-- The port state of a session, if the session exists (R59, R96). -/
def State.port? (s : State) : Session → Option Port
  | .derivation => some s.drv
  | .context c => (s.ctxs[c]?).map Context.port

/-- Replace the port state of a session, and nothing else. -/
def State.setPort (s : State) (x : Session) (p : Port) : State :=
  match x with
  | .derivation => { s with drv := p }
  | .context c => s.updateCtx c fun y => { y with port := p }

/-- Replace `INFL[s]` of a session's port. -/
def Port.setSlot (p : Port) (slot : Slot) : Port := { p with infl := slot }

/-! ### Recording what went wrong (spec/60_exceptions.md) -/

/-- Where an error is recorded: `PERR` of `PREPARE`, or `CERR[c]` of a context's `MAC` (R256). -/
inductive ErrorSite where
  | prepare
  | context (c : Nat)
deriving DecidableEq, Repr

/-- Write an error field. -/
def setError (e : ErrorCode) (site : ErrorSite) (s : State) : State :=
  match site with
  | .prepare => { s with perr := e }
  | .context c => s.updateCtx c fun x => { x with cerr := e }

/-- `raise X(where)` (R256), the one way an error is taken: the code goes to the error field of
`where` and nothing else is saved; the raising rule says how the operation ends. The hardware runs no
software, so there is no saved program counter, no mode and no handler (R250, R264). -/
def raise (e : ErrorCode) (site : ErrorSite) (s : State) : State := setError e site s

/-- The return from an error (R265): there is no return instruction, the error field is cleared by the
acceptance of the next command of the same kind. -/
def clearError (site : ErrorSite) (s : State) : State := setError .noError site s

/-- `reject X`: `REJ <- code(X)` "with no other state change" (R236). -/
def reject (r : Rejection) (s : State) : State := { s with rej := r }

/-- An accepted command: `REJ <- 0` (R236 line 7). -/
def accept (s : State) : State := { s with rej := .accepted }

/-! ### Outcomes -/

/-- Go on from a next state; a stop stays a stop. -/
def onNext {φ ρ : Type} (o : Host.Outcome State φ ρ) (f : State → State) : Host.Outcome State φ ρ :=
  match o with
  | .next s => .next (f s)
  | .fault r => .fault r
  | .refused r => .refused r

end Sys2Proof.Machine
end

