-- ==== Sys2Proof/Machine/Flags.lean ====
section
/-!
DEFINITION. Status and code values. The hardware has no condition codes (spec/10_state.md R41); what
it has are the status fields and the words the host reads them in (R34, R47, R51, R55; codes in
spec/30_encoding.md R132, R133).
-/

namespace Sys2Proof.Machine

/-- The code of `PSTATE` (R34). -/
def prepCode : PrepState → BitVec 2
  | .unprepared => 0#2
  | .preparing => 1#2
  | .prepared => 2#2
  | .fatal => 3#2

/-- The code of an error field (R132). -/
def errorCode : ErrorCode → BitVec 4
  | .noError => 0#4
  | .invalidKeyLength => 1#4
  | .providerFailure => 2#4
  | .malformedInput => 3#4

/-- The code of `REJ` (R133). -/
def rejectionCode : Rejection → BitVec 4
  | .accepted => 0#4
  | .badEncoding => 1#4
  | .fatalState => 2#4
  | .badState => 3#4
  | .badContext => 4#4
  | .contextBusy => 5#4
  | .badLength => 6#4

/-- `REJ` as the host reads it: `zext_32(REJ)` (R46). -/
def rejWord (s : State) : Word := (rejectionCode s.rej).setWidth 32

/-- `PSTAT` (R47): `zext_32(KEYLEN ‖ PERR ‖ 0b00 ‖ PSTATE)`. -/
def pstatWord (s : State) : Word :=
  (s.keylen ++ errorCode s.perr ++ 0#2 ++ prepCode s.pstate).setWidth 32

/-- `CSTAT[c]` (R51): `zext_32(CERR[c] ‖ 0b00 ‖ DONE[c] ‖ BUSY[c])`. -/
def cstatWord (x : Context) : Word :=
  (errorCode x.cerr ++ 0#2 ++ BitVec.ofBool x.done ++ BitVec.ofBool x.busy).setWidth 32

/-- Whether the tag of a context is valid: `DONE[c] = 1 and CERR[c] = 0` (R55). -/
def tagValid (x : Context) : Bool := x.done && decide (x.cerr = .noError)

/-- `TAGk[c]` (R55): word k of `ACC[c]` when the tag is valid, and 0 otherwise. This is the final-block
selector (R207). -/
def tagWord (x : Context) (k : Nat) : Word := if tagValid x then blockWord x.acc k else 0#32

end Sys2Proof.Machine
end

