-- ==== Sys2Proof/Machine/Operands.lean ====
section
/-!
DEFINITION. The operands of the two commands and of the internal operations: the key bytes, the
message bytes, the legal key lengths, and the length analyser of the padder (spec/10_state.md R31,
spec/20_memory.md R86, spec/30_encoding.md R123 to R125, spec/42_padding.md R182).
-/

namespace Sys2Proof.Machine

/-! ### The key -/

/-- The legal key lengths, "16, 24, or 32 bytes" (R11, R123). -/
def legalKeyLength (n : Nat) : Bool := n == 16 || n == 24 || n == 32

/-- `KEY.b[0 .. KEYLEN-1]`, the key the hardware uses; bytes at and above `KEYLEN` are never read (R31). -/
def State.keyBytes (s : State) : List Byte := s.key.toList.take s.keylen.toNat

/-- A write of v to `KEYk`: four key bytes, the first from bits [31:24] (R31). -/
def writeKeyWord (key : Vector Byte 32) (k : Nat) (v : Word) : Vector Byte 32 :=
  (((key.setIfInBounds (4 * k) (wordByte v 0)).setIfInBounds (4 * k + 1) (wordByte v 1)).setIfInBounds
    (4 * k + 2) (wordByte v 2)).setIfInBounds (4 * k + 3) (wordByte v 3)

/-! ### The message -/

/-- The message byte `MSG[c][a]` of a context: the byte the host wrote, or, if it wrote none since
reset, an unspecified one that is the same at every read until the next reset (R88). -/
def messageByte (resets c : Nat) (x : Context) (a : Nat) : Byte :=
  (x.mem.read a).getD (Config.unwrittenByte resets c a)

/-- `MemRead(c, a, n)` (R86): n bytes from address a, first byte first. -/
def memRead (resets c : Nat) (x : Context) (a n : Nat) : List Byte :=
  (List.range n).map fun j => messageByte resets c x (a + j)

/-- The message of a context: `MSG[c][0 .. MSGLEN[c]-1]` (R81, R228). -/
def message (resets c : Nat) (x : Context) : List Byte := memRead resets c x 0 x.msglen.toNat

/-! ### The length analyser (R182), "as mathematical integers" -/

/-- `complete`: the last Block is a whole message Block. -/
def complete (len : Nat) : Bool := decide (0 < len) && len % 16 == 0

/-- `nblk(len)`, the number of padded Blocks. -/
def nblk (len : Nat) : Nat := if len = 0 then 1 else (len + 15) / 16

/-- `r`, the number of message bytes in the last Block. -/
def lastBytes (len : Nat) : Nat := len - 16 * (nblk len - 1)

/-- `padlen`, the length of the padded message in bytes. -/
def padlen (len : Nat) : Nat := 16 * nblk len

end Sys2Proof.Machine
end

