-- ==== Sys2Proof/Machine/Commands.lean ====
section
/-!
DEFINITION. The meanings of the two commands, PREPARE and MAC (spec/44_commands.md), from line 2 of
R236 on (line 1, the encoding, is the decoder's). Both are complete in the step of the `CMD` write:
they are rejected, end with `InvalidKeyLength`, or start work that the sequencer goes on with.
-/

namespace Sys2Proof.Machine

/-- Accepted `PREPARE` with an illegal length (R222): `InvalidKeyLength` is raised, nothing else
changes. -/
def prepareIllegal (s : State) : State := raise .invalidKeyLength .prepare (accept s)

/-- Accepted `PREPARE` with a legal length (R223): the derivation starts. -/
def prepareStart (keylen : Nat) (s : State) : State :=
  { clearError .prepare (accept s) with
    keylen := BitVec.ofNat 8 keylen, dsent := false, pstate := .preparing }

/-- `PREPARE KEYLEN` (R220 to R223, R236). -/
def execPrepare (keylen : Nat) (s : State) : Host.Outcome State Fault Refusal :=
  if s.pstate = .fatal then .next (reject .fatalState s)
  else if s.pstate ≠ .unprepared then .next (reject .badState s)
  else if legalKeyLength keylen then .next (prepareStart keylen s)
  else .next (prepareIllegal s)

/-- Accepted `MAC` for context c (R230, R202): the computation starts. -/
def macStart (c : Nat) (s : State) : State :=
  (clearError (.context c) (accept s)).updateCtx c fun x =>
    { x with
      busy := true, done := false, nblk := BitVec.ofNat 32 (nblk x.msglen.toNat), sent := 0#32,
      rcvd := 0#32, acc := zeroBlock }

/-- `MalformedInput` raised for context c (R259): the core enters `FATAL`. -/
def macMalformed (c : Nat) (s : State) : State :=
  let s := (raise .malformedInput (.context c) (accept s)).updateCtx c fun x =>
    { x with done := true, busy := false, acc := zeroBlock }
  { s with pstate := .fatal }

/-- The alignment check made when a `MAC` is accepted: `padlen mod 16` is 0 (R258). -/
def aligned (len : Nat) : Bool := padlen len % 16 == 0

/-- `MAC CTX` (R228 to R230, R236, R258). -/
def execMac (ctx : Nat) (s : State) : Host.Outcome State Fault Refusal :=
  if s.pstate = .fatal then .next (reject .fatalState s)
  else if s.pstate ≠ .prepared then .next (reject .badState s)
  else
    match s.ctxs[ctx]? with
    | none => .next (reject .badContext s)
    | some x =>
      if x.busy then .next (reject .contextBusy s)
      else if s.msgcap < x.msglen then .next (reject .badLength s)
      else if aligned x.msglen.toNat then .next (macStart ctx s)
      else .next (macMalformed ctx s)

end Sys2Proof.Machine
end

