-- ==== Sys2Proof/Machine/Dispatch.lean ====
section
/-! DEFINITION. exec: one arm per constructor of Instr, each a direct call of its meaning. -/

namespace Sys2Proof.Machine

def exec (i : Instr) (s : State) : Host.Outcome State Fault Refusal :=
  match i with
  | .prepare keylen => Sys2Proof.Machine.execPrepare keylen s
  | .mac ctx => Sys2Proof.Machine.execMac ctx s

end Sys2Proof.Machine
end

