-- ==== Sys2Proof/Machine/HostPort.lean ====
section
/-!
DEFINITION. The host port (spec/20_memory.md sections 2 and 3, spec/10_state.md R42 to R55): which
register an offset is, what a read returns, what a write does, and when an access is refused, ignored
or performed (R78). A write to `CMD` decodes and executes the word in the same step (R45, R120, R236).
-/

namespace Sys2Proof.Machine

/-- The registers of the host register space (R42, R48). -/
inductive HostReg where
  | id
  | cfgNctx
  | cfgMsgcap
  | cmd
  | rej
  | pstat
  | key (k : Nat)
  | cstat (c : Nat)
  | msglen (c : Nat)
  | msgptr (c : Nat)
  | msgdata8 (c : Nat)
  | msgdata32 (c : Nat)
  | tag (c k : Nat)
deriving DecidableEq, Repr

/-- `CB(c)`, the offset of context c's bank (R48). -/
def contextBase (c : Nat) : Nat := 0x100 + 0x40 * c

/-- The register at an aligned offset inside context c's bank, if there is one (R48, R72). -/
def bankRegAt (c off : Nat) : Option HostReg :=
  if off = 0x00 then some (.cstat c)
  else if off = 0x04 then some (.msglen c)
  else if off = 0x08 then some (.msgptr c)
  else if off = 0x0C then some (.msgdata8 c)
  else if off = 0x10 then some (.msgdata32 c)
  else if 0x20 ≤ off ∧ off < 0x30 then some (.tag c ((off - 0x20) / 4))
  else none

/-- The register at an aligned offset, if there is one: every other offset, and every bank of a
context at or above NCTX, is unmapped (R42, R48, R72). -/
def regAt (nctx addr : Nat) : Option HostReg :=
  if addr = 0x000 then some .id
  else if addr = 0x004 then some .cfgNctx
  else if addr = 0x008 then some .cfgMsgcap
  else if addr = 0x00C then some .cmd
  else if addr = 0x010 then some .rej
  else if addr = 0x014 then some .pstat
  else if 0x020 ≤ addr ∧ addr < 0x040 then some (.key ((addr - 0x020) / 4))
  else if 0x100 ≤ addr ∧ (addr - 0x100) / 0x40 < nctx then
    bankRegAt ((addr - 0x100) / 0x40) ((addr - 0x100) % 0x40)
  else none

/-- The register an access reaches, or none if the access is refused for its width (R73), its
alignment (R74) or an unmapped offset (R76). -/
def addressed (a : HostAccess) (s : State) : Option HostReg :=
  if a.width = .w32 then
    if a.addr.toNat % 4 = 0 then regAt s.nctx a.addr.toNat else none
  else none

/-- A value of context c's bank; a context that does not exist has none. -/
def ofContext (s : State) (c : Nat) (f : Context → Word) : Word :=
  match s.ctxs[c]? with
  | some x => f x
  | none => 0#32

/-- What a read of a register returns: a write-only register reads as 0 (R43); no read has a side
effect (R79). -/
def readReg (r : HostReg) (s : State) : Word :=
  match r with
  | .id => Config.idWord
  | .cfgNctx => BitVec.ofNat 32 s.nctx
  | .cfgMsgcap => s.msgcap
  | .cmd => 0#32
  | .rej => rejWord s
  | .pstat => pstatWord s
  | .key _ => 0#32
  | .cstat c => ofContext s c cstatWord
  | .msglen c => ofContext s c Context.msglen
  | .msgptr c => ofContext s c Context.msgptr
  | .msgdata8 _ => 0#32
  | .msgdata32 _ => 0#32
  | .tag c k => ofContext s c fun x => tagWord x k

/-- Whether context c is computing. -/
def State.busy (s : State) (c : Nat) : Bool :=
  match s.ctxs[c]? with
  | some x => x.busy
  | none => false

/-- The write locks (R77): `KEYk` unless `UNPREPARED` (R39); the input registers of a context while it
is busy. -/
def writeLocked (r : HostReg) (s : State) : Bool :=
  match r with
  | .key _ => decide (s.pstate ≠ .unprepared)
  | .msglen c => s.busy c
  | .msgptr c => s.busy c
  | .msgdata8 c => s.busy c
  | .msgdata32 c => s.busy c
  | .id => false
  | .cfgNctx => false
  | .cfgMsgcap => false
  | .cmd => false
  | .rej => false
  | .pstat => false
  | .cstat _ => false
  | .tag _ _ => false

/-- A write to `MSGDATA8[c]` (R82): store v[7:0] at the pointer and advance it by 1. -/
def writeData8 (c : Nat) (v : Word) (s : State) : State :=
  s.updateCtx c fun x =>
    { x with mem := storeByte s.msgcap x.mem x.msgptr (wordByte v 3), msgptr := x.msgptr + 1#32 }

/-- The four bytes of a `MSGDATA32` write (R83): byte j goes to `(p + j) mod 2^32`. -/
def storeWord (msgcap : Word) (m : Memory) (p v : Word) : Memory :=
  storeByte msgcap
    (storeByte msgcap
      (storeByte msgcap
        (storeByte msgcap m p (wordByte v 0))
        (p + 1#32) (wordByte v 1))
      (p + 2#32) (wordByte v 2))
    (p + 3#32) (wordByte v 3)

/-- A write to `MSGDATA32[c]` (R83): store four bytes at the pointer and advance it by 4. -/
def writeData32 (c : Nat) (v : Word) (s : State) : State :=
  s.updateCtx c fun x =>
    { x with mem := storeWord s.msgcap x.mem x.msgptr v, msgptr := x.msgptr + 4#32 }

/-- A write of v to `CMD` (R236): a word that is no command is rejected with `BAD_ENCODING` before
anything else is looked at; a command is executed. -/
def command (v : Word) (s : State) : Host.Outcome State Fault Refusal :=
  match decode v with
  | .error _ => .next (reject .badEncoding s)
  | .ok i => exec i s

/-- What a write that is not refused does: a read-only register ignores it (R43). -/
def writeReg (r : HostReg) (v : Word) (s : State) : Host.Outcome State Fault Refusal :=
  match r with
  | .cmd => command v s
  | .key k => .next { s with key := writeKeyWord s.key k v }
  | .msglen c => .next (s.updateCtx c fun x => { x with msglen := v })
  | .msgptr c => .next (s.updateCtx c fun x => { x with msgptr := v })
  | .msgdata8 c => .next (writeData8 c v s)
  | .msgdata32 c => .next (writeData32 c v s)
  | .id => .next s
  | .cfgNctx => .next s
  | .cfgMsgcap => .next s
  | .rej => .next s
  | .pstat => .next s
  | .cstat _ => .next s
  | .tag _ _ => .next s

/-- Give the host the response of its access. -/
def setReply (r : Reply) (s : State) : State := { s with reply := some r }

/-- One access on the host port (R70, R78), one atomic step: refused with ERR and data 0 and no state
change, or performed with OK. The response to a `CMD` write is OK whatever becomes of the command
(R236). -/
def hostAccess (a : HostAccess) (s : State) : Host.Outcome State Fault Refusal :=
  match addressed a s, a.op with
  | none, .read => .next (setReply (.read .err 0#32) s)
  | none, .write _ => .next (setReply (.write .err) s)
  | some r, .read => .next (setReply (.read .ok (readReg r s)) s)
  | some r, .write v =>
    if writeLocked r s then .next (setReply (.write .err) s)
    else onNext (writeReg r v s) (setReply (.write .ok))

end Sys2Proof.Machine
end

