-- ==== Sys2Proof/Machine/Provider.lean ====
section
/-!
DEFINITION. The cipher provider, the external agent (spec/20_memory.md R102 to R104): one step answers
one request beat. It keeps its contract; a provider that breaks it has no step (R108,
notes/assumptions/14.md).
-/

namespace Sys2Proof.Machine

/-- The ciphertext Block of a request beat with the session's chain value (R102): the first beat is
chained with the all-zero IV, every other with the previous ciphertext Block. -/
def providerCipher (cv : Block) (q : Request) : Block :=
  Config.cipher q.keylen q.key (q.block ^^^ (if q.first then zeroBlock else cv))

/-- The provider's answer number `n` to a request beat, on the session's port (R102). On failure the
Block is unspecified and the chain value stays (R98, R102). -/
def providerAnswer (n : Nat) (p : Port) (q : Request) : Port :=
  if Config.providerFails n then { p with infl := .response true (Config.failedBlock n) }
  else { infl := .response false (providerCipher p.cv q), cv := providerCipher p.cv q }

/-- The provider's step on a session, enabled when a request beat is in flight (R102). It reads the
beat only and writes `INFL[s]` and its own `CV[s]` only. -/
def providerStep? (x : Session) (s : State) : Option State :=
  match s.port? x with
  | some p =>
    match p.infl with
    | .request q => some { s.setPort x (providerAnswer s.draws p q) with draws := s.draws + 1 }
    | _ => none
  | none => none

end Sys2Proof.Machine
end

