-- ==== Sys2Proof/Machine/Subkeys.lean ====
section
/-!
DEFINITION. The subkey deriver, OPJ's second component (spec/41_subkey_derivation.md): the function
`DERIVE` (R170) and the two steps the sequencer performs it in (R171, R174, R175). `L` is inside one
step and is not kept (R172).
-/

namespace Sys2Proof.Machine

/-- `L = E(KEYLEN, key, Z16)` (R170, R172). -/
def cipherOfZero (keylen : BitVec 8) (key : List Byte) : Block := Config.cipher keylen key zeroBlock

/-- `DERIVE` as a function (R170): `K1 = DOUBLE(L)` and `K2 = DOUBLE(K1)` (R173). -/
def deriveSubkeys (keylen : BitVec 8) (key : List Byte) : Block × Block :=
  let k1 := double (cipherOfZero keylen key)
  (k1, double k1)

/-- The request beat of the derivation session (R171): the one Block is the zero Block, and it is the
first and the last. -/
def State.derivationRequest (s : State) : Request :=
  { first := true, last := true, keylen := s.keylen, key := s.keyBytes, block := zeroBlock }

/-- The effect of the derivation send step (R171). -/
def deriveSend (s : State) : State :=
  { s with drv := s.drv.setSlot (.request s.derivationRequest), dsent := true }

/-- The effect of the derivation receive step with the response Block C (R174): both subkeys and
`PREPARED` in one step. -/
def deriveReceive (c : Block) (s : State) : State :=
  { s with
    drv := s.drv.setSlot .empty, k1 := double c, k2 := double (double c), dsent := false,
    pstate := .prepared }

/-- The effect of the derivation receive step on `err = 1` (R175): `ProviderFailure` is raised for
`PREPARE`; `K1`, `K2`, `KEY` and `KEYLEN` keep their values; the beat is not sent again. -/
def deriveFail (s : State) : State :=
  let s := raise .providerFailure .prepare s
  { s with drv := s.drv.setSlot .empty, dsent := false, pstate := .unprepared }

/-- The enabled sequencer step of the derivation session, if there is one (R171, R174, R175). Sending
also needs `INFL[SID_DRV] = NONE` (R97), which R171 derives. -/
def deriveStep? (s : State) : Option State :=
  if s.pstate = .preparing then
    match s.dsent, s.drv.infl with
    | false, .empty => some (deriveSend s)
    | true, .response false c => some (deriveReceive c s)
    | true, .response true _ => some (deriveFail s)
    | _, _ => none
  else none

end Sys2Proof.Machine
end

