-- ==== Sys2Proof/Machine/Padding.lean ====
section
/-!
DEFINITION. The block padder, OPJ's third component (spec/42_padding.md): the padded Block the tag
engine asks for (R186), and the operation `PAD` on a whole message as OPJ states it (R180, R181),
which the hardware never forms (R187). It reads the message and the subkeys and writes nothing (R188);
it raises no error (R190).
-/

namespace Sys2Proof.Machine

/-- Which subkey the last Block takes (R184). -/
def selectSubkey (len : Nat) (k1 k2 : Block) : Block := if complete len then k1 else k2

/-- The last Block before the exclusive-or with a subkey: the remaining message bytes, one byte 0x80
and zeros; all message bytes when the message is complete (R186). -/
def lastBlock (len : Nat) (msg : Nat → Byte) : Block :=
  blockOfBytes fun j =>
    if j < lastBytes len then msg (16 * (nblk len - 1) + j)
    else if j = lastBytes len then 0x80#8
    else 0x00#8

/-- The i-th padded Block of a message of `len` bytes (R186). -/
def paddedBlock (len : Nat) (msg : Nat → Byte) (k1 k2 : Block) (i : Nat) : Block :=
  if i + 1 < nblk len then blockOfBytes fun j => msg (16 * i + j)
  else xorInto (lastBlock len msg) (selectSubkey len k1 k2)

/-- `PB(c, i)` (R186), from `MSG[c]`, `MSGLEN[c]`, `K1` and `K2`. -/
def State.paddedBlock (s : State) (c : Nat) (x : Context) (i : Nat) : Block :=
  Sys2Proof.Machine.paddedBlock x.msglen.toNat (messageByte s.resets c x) s.k1 s.k2 i

/-- `PAD(M, K1, K2)` (R180, R181), on the whole message. -/
def pad (m : List Byte) (k1 k2 : Block) : List Byte :=
  if 0 < m.length ∧ m.length % 16 = 0 then xorTail m k1
  else xorTail (m ++ 0x80#8 :: List.replicate (15 - m.length % 16) 0x00#8) k2

end Sys2Proof.Machine
end

