-- ==== Sys2Proof/Machine/TagEngine.lean ====
section
/-!
DEFINITION. The tag engine, OPJ's fourth component (spec/43_tag_engine.md): the send and receive steps
of a context's session (R203 to R206), and what they compute as a function (R200, R201). The engine
feeds padded Blocks to the provider one at a time and keeps the last ciphertext Block in `ACC[c]`; the
chaining is the provider's (R208).
-/

namespace Sys2Proof.Machine

/-! ### The function -/

/-- CBC chaining with an all-zero IV (R103): the i-th ciphertext Block of the plaintext Blocks `p`
under the block function `e`. -/
def cbcChain (e : Block → Block) (p : Nat → Block) : Nat → Block
  | 0 => e (p 0)
  | i + 1 => e (p (i + 1) ^^^ cbcChain e p i)

/-- The tag of a message of `len` bytes (R200, R201): the last ciphertext Block of the padded
message. -/
def cmacTag (keylen : BitVec 8) (key : List Byte) (k1 k2 : Block) (len : Nat) (msg : Nat → Byte) :
    Block :=
  cbcChain (Config.cipher keylen key) (paddedBlock len msg k1 k2) (nblk len - 1)

/-- The ciphertext Blocks `C_0, C_1, …` of context c's session (R201), from the key, the subkeys and
the message that the state holds. -/
def State.chain (s : State) (c : Nat) (x : Context) (i : Nat) : Block :=
  cbcChain (Config.cipher s.keylen s.keyBytes) (s.paddedBlock c x) i

/-- The tag of context c's message (R201). -/
def State.tag (s : State) (c : Nat) (x : Context) : Block :=
  cmacTag s.keylen s.keyBytes s.k1 s.k2 x.msglen.toNat (messageByte s.resets c x)

/-! ### The steps -/

/-- The request beat for the next padded Block, with `i = SENT[c]` (R203). -/
def State.tagRequest (s : State) (c : Nat) (x : Context) : Request :=
  { first := decide (x.sent.toNat = 0), last := decide (x.sent.toNat + 1 = x.nblk.toNat),
    keylen := s.keylen, key := s.keyBytes, block := s.paddedBlock c x x.sent.toNat }

/-- The effect of the send step on context c (R203). -/
def tagSend (s : State) (c : Nat) (x : Context) : State :=
  s.updateCtx c fun y =>
    { y with port := y.port.setSlot (.request (s.tagRequest c x)), sent := x.sent + 1#32 }

/-- The effect of the receive step of a Block that is not the last (R204). -/
def tagReceive (s : State) (c : Nat) (block : Block) : State :=
  s.updateCtx c fun y =>
    { y with port := y.port.setSlot .empty, acc := block, rcvd := y.rcvd + 1#32 }

/-- The effect of the receive step of the last Block (R205): the computation is done. -/
def tagReceiveLast (s : State) (c : Nat) (block : Block) : State :=
  (tagReceive s c block).updateCtx c fun y => { y with busy := false, done := true }

/-- The effect of the receive step on `err = 1`, at any Block index (R206): `ProviderFailure` is raised
for c, the accumulator is cleared and no further beat is sent. -/
def tagFail (s : State) (c : Nat) : State :=
  (raise .providerFailure (.context c) s).updateCtx c fun y =>
    { y with port := y.port.setSlot .empty, acc := zeroBlock, busy := false, done := true }

/-- The enabled sequencer step of context c's session, if there is one (R203 to R206). Sending also
needs `INFL[c] = NONE` (R97), which R203 derives. -/
def tagStep? (c : Nat) (s : State) : Option State :=
  match s.ctxs[c]? with
  | none => none
  | some x =>
    if x.busy then
      match x.port.infl with
      | .empty => if x.sent = x.rcvd ∧ x.sent < x.nblk then some (tagSend s c x) else none
      | .request _ => none
      | .response true _ => some (tagFail s c)
      | .response false block =>
        if x.rcvd.toNat + 1 < x.nblk.toNat then some (tagReceive s c block)
        else if x.rcvd.toNat + 1 = x.nblk.toNat then some (tagReceiveLast s c block)
        else none
    else none

end Sys2Proof.Machine
end

