-- ==== Sys2Proof/Machine/Agents.lean ====
section
/-!
DEFINITION. The agents (spec/00_scope.md R17, R18): which step comes next and what it does, the reset
input (spec/70_reset_and_hazards.md section 1), and how a command word is placed as the next thing to
happen. Step.lean only calls this file.
-/

namespace Sys2Proof.Machine

/-- The enabled step of the core sequencer on a session, if there is one (R18 b). -/
def sequencerStep? (x : Session) (s : State) : Option State :=
  match x with
  | .derivation => deriveStep? s
  | .context c => tagStep? c s

/-- Reset (R290, R292, R293): every element of state has the value of R62, whatever was going on. The
instance keeps its parameters; what the host and the schedule bring next, and the counters that index
free draws, are not the core's and go on. -/
def resetStep (s : State) : State :=
  { State.afterReset s.nctx s.msgcap (s.resets + 1) with
    input := s.input, draws := s.draws, picks := s.picks }

/-- What an event does. A sequencer or provider event whose step is not enabled does nothing
(notes/assumptions/2.md). -/
def perform (e : Event) (s : State) : Host.Outcome State Fault Refusal :=
  match e with
  | .host a => hostAccess a s
  | .sequencer x => .next ((sequencerStep? x s).getD s)
  | .provider x => .next ((providerStep? x s).getD s)
  | .reset => .next (resetStep s)

/-- The sessions of the instance (R96): the derivation session and one for each context. -/
def State.sessions (s : State) : List Session :=
  .derivation :: (List.range s.nctx).map .context

/-- Whether the step of a sequencer or provider event is enabled. Host accesses and reset come from
outside only. -/
def enabled (s : State) (e : Event) : Bool :=
  match e with
  | .host _ => false
  | .sequencer x => (sequencerStep? x s).isSome
  | .provider x => (providerStep? x s).isSome
  | .reset => false

/-- The enabled sequencer and provider steps. -/
def enabledEvents (s : State) : List Event :=
  (s.sessions.flatMap fun x => [.sequencer x, .provider x]).filter (enabled s)

/-- What happens next, and the state it happens in. The input comes first. When it says nothing, one
of the enabled sequencer and provider steps is taken, any one (R17): the choice is a free value
(notes/assumptions/3.md). When none is enabled the core is quiescent and nothing happens (R311). -/
def nextEvent (s : State) : Option (Event × State) :=
  match s.input with
  | e :: rest => some (e, { s with input := rest })
  | [] =>
    match enabledEvents s with
    | [] => none
    | [e] => some (e, s)
    | e :: es =>
      some ((e :: es).getD (Config.pick s.picks % (e :: es).length) e, { s with picks := s.picks + 1 })

/-- The host writes a 32-bit word to `CMD` (offset 0x00C, R120). -/
def cmdWrite (w : Word) : Event := .host { width := .w32, addr := 0x00C#12, op := .write w }

/-- Make a `CMD` write of `w` the very next thing that happens. -/
def placeCommand (w : Nat) (s : State) : State :=
  { s with input := cmdWrite (BitVec.ofNat 32 w) :: s.input }

end Sys2Proof.Machine
end

