-- ==== Sys2Proof/Machine/Step.lean ====
section
/-!
DEFINITION. One atomic step of the whole machine (spec/00_scope.md R17, spec/20_memory.md R90).
-/

namespace Sys2Proof.Machine

/-- One step: the next event happens; a quiescent core with no input stays as it is (R291, R311). -/
def step (s : State) : Host.Outcome State Fault Refusal :=
  match nextEvent s with
  | some (e, t) => perform e t
  | none => .next s

/-- The state in which the very next step is the host's write of the command word `w` to `CMD`. There
is no program counter and no fetch (R40, R94): a command is the value of such a write
(notes/assumptions/2.md). Both rows of the table have 32 bits; a shorter word has zeros above. -/
def State.withFetchWord (s : State) (nbits w : Nat) : State :=
  placeCommand (w % 2 ^ nbits) s

end Sys2Proof.Machine
end

