-- ==== Sys2Proof/Machine/Script.lean ====
section
/-!
DEFINITION. The host-script notation of spec/30_encoding.md R136 and R137: each line as the host
accesses it stands for, a list of events to put in `State.input`. The hardware has no assembler; the
notation says only what a host issues. A wait (`POLL`, `WAITPREP`, `WAITMAC`) is a repetition without a
bound, so it is given here by what happens between its reads (notes/assumptions/22.md).
-/

namespace Sys2Proof.Machine

/-- `RD addr` (R136). -/
def lineRd (addr : Nat) : Event := .host { width := .w32, addr := BitVec.ofNat 12 addr, op := .read }

/-- `WR addr, value` (R136). -/
def lineWr (addr : Nat) (value : Word) : Event :=
  .host { width := .w32, addr := BitVec.ofNat 12 addr, op := .write value }

/-- `POLL addr, …` (R136): reads of one register; "between two reads any number of sequencer and
provider steps may happen": `gaps` holds those before each read. -/
def linePoll (addr : Nat) (gaps : List (List Event)) : List Event :=
  gaps.flatMap fun steps => steps ++ [lineRd addr]

/-- The condition that ends a `POLL`: `t & mask = value` (R136). -/
def pollEnds (mask value t : Word) : Bool := t &&& mask == value

/-- `LOADKEY h` (R137): the key bytes followed by zeros, as eight writes. -/
def lineLoadKey (h : List Byte) : List Event :=
  (List.range 8).map fun k => lineWr (0x020 + 4 * k) (wordOfBytes fun j => h.getD (4 * k + j) 0x00#8)

/-- `PREPARE n` (R137): `WR CMD, 0x01000000 + n`. -/
def linePrepare (n : Nat) : Event := lineWr 0x00C (0x01000000#32 + BitVec.ofNat 32 n)

/-- `WAITPREP` (R137): reads of `PSTAT`. -/
def lineWaitPrep (gaps : List (List Event)) : List Event := linePoll 0x014 gaps

/-- The condition that ends `WAITPREP`: `t[1:0] != 1` (R137). -/
def waitPrepEnds (t : Word) : Bool := t.extractLsb' 0 2 != 1#2

/-- `LOADMSG c, h` (R137): set the pointer, write the bytes, set the length. -/
def lineLoadMsg (c : Nat) (h : List Byte) : List Event :=
  lineWr (contextBase c + 0x08) 0#32 :: (h.map fun b => lineWr (contextBase c + 0x0C) (b.setWidth 32)) ++
    [lineWr (contextBase c + 0x04) (BitVec.ofNat 32 h.length)]

/-- `LOADMSG32 c, h` (R137): the same by words, "the last word filled up with 0x00 bytes". -/
def lineLoadMsg32 (c : Nat) (h : List Byte) : List Event :=
  lineWr (contextBase c + 0x08) 0#32 ::
      ((List.range ((h.length + 3) / 4)).map fun k =>
        lineWr (contextBase c + 0x10) (wordOfBytes fun j => h.getD (4 * k + j) 0x00#8)) ++
    [lineWr (contextBase c + 0x04) (BitVec.ofNat 32 h.length)]

/-- `MAC c` (R137): `WR CMD, 0x02000000 + 0x10000 * c`. -/
def lineMac (c : Nat) : Event := lineWr 0x00C (0x02000000#32 + 0x10000#32 * BitVec.ofNat 32 c)

/-- `WAITMAC c` (R137): reads of `CSTAT[c]`, ended by `pollEnds 0x2 0x2`. -/
def lineWaitMac (c : Nat) (gaps : List (List Event)) : List Event := linePoll (contextBase c) gaps

/-- `GETTAG c` (R137): the four reads of the tag. -/
def lineGetTag (c : Nat) : List Event :=
  (List.range 4).map fun k => lineRd (contextBase c + 0x20 + 4 * k)

/-- OPJ's `prepare(key)` as a script (R138). -/
def scriptPrepare (key : List Byte) (gaps : List (List Event)) : List Event :=
  lineLoadKey key ++ [linePrepare key.length] ++ lineWaitPrep gaps ++ [lineRd 0x014]

/-- OPJ's `MacFunction(message)` on context c as a script (R138). -/
def scriptMac (c : Nat) (msg : List Byte) (gaps : List (List Event)) : List Event :=
  lineLoadMsg c msg ++ [lineMac c] ++ lineWaitMac c gaps ++ [lineRd (contextBase c)] ++ lineGetTag c

end Sys2Proof.Machine
end

