-- ==== Sys2Proof/Safety.lean ====
section
/-!
DEFINITION. The terms claims about runs use: the invariants of spec/10_state.md R63 and what they rest
on, quiescence (R311), the work left to do, the view of a state without its secrets (R306), and the
polynomial a Block stands for (R154).
-/

namespace Sys2Proof.Machine

/-! ### Invariants -/

/-- What holds of one context in every reachable state: its memory is canonical and inside MSGCAP
(R58), and R56 and R63 (d), (e), (f). `running` adds that a busy context has a Block to receive and, with
nothing in flight, a Block to send (R203). -/
structure Context.Inv (msgcap : Word) (x : Context) : Prop where
  memWf : x.mem.wf
  memBound : ∀ cell ∈ x.mem, cell.1 < msgcap.toNat
  counters : x.rcvd.toNat ≤ x.sent.toNat ∧ x.sent.toNat ≤ x.rcvd.toNat + 1 ∧ x.sent.toNat ≤ x.nblk.toNat
  busyMessage : x.busy = true →
    x.msglen ≤ msgcap ∧ x.nblk.toNat = Sys2Proof.Machine.nblk x.msglen.toNat ∧ x.cerr = .noError
  inFlight : x.port.infl ≠ .empty → x.busy = true ∧ x.sent.toNat = x.rcvd.toNat + 1
  doneIdle : x.done = true → x.busy = false
  running : x.busy = true → x.rcvd.toNat < x.nblk.toNat ∧ (x.port.infl = .empty → x.sent = x.rcvd)

/-- What holds in every reachable state: the parameters are in range (R12), R63 (a), (b) and (e) for the
derivation session, and every context's invariant. -/
structure State.Inv (s : State) : Prop where
  contexts : 1 ≤ s.nctx ∧ s.nctx ≤ 32
  capacity : 16 ≤ s.msgcap.toNat
  keyLength : s.pstate ≠ .unprepared → legalKeyLength s.keylen.toNat = true
  noSubkeys : s.pstate = .unprepared ∨ s.pstate = .preparing →
    s.k1 = zeroBlock ∧ s.k2 = zeroBlock ∧ ∀ x ∈ s.ctxs, x.busy = false
  derivation : s.drv.infl ≠ .empty → s.pstate = .preparing ∧ s.dsent = true
  awaiting : s.pstate = .preparing → s.dsent = true → s.drv.infl ≠ .empty
  eachContext : ∀ x ∈ s.ctxs, x.Inv s.msgcap

/-- R63 (c), and what it rests on while the derivation is in progress: the beat in flight is the
derivation's, the answer is `L`. -/
structure State.SubkeyInv (s : State) : Prop where
  derived : s.pstate = .prepared ∨ s.pstate = .fatal → (s.k1, s.k2) = deriveSubkeys s.keylen s.keyBytes
  asked : ∀ q, s.drv.infl = .request q → q = s.derivationRequest
  answered : ∀ c, s.drv.infl = .response false c → c = cipherOfZero s.keylen s.keyBytes

/-- What holds of a busy context's session (R97, R102, R103, R204): every Block received so far was
the next one of the CBC chain of the padded message, the beat in flight is the next padded Block, and
the provider's chain value is the last ciphertext Block. -/
structure State.ChainInv (s : State) (c : Nat) (x : Context) : Prop where
  fresh : x.rcvd.toNat = 0 → x.acc = zeroBlock
  received : 0 < x.rcvd.toNat → x.acc = s.chain c x (x.rcvd.toNat - 1)
  asked : ∀ q, x.port.infl = .request q →
    q = { first := decide (x.rcvd.toNat = 0), last := decide (x.rcvd.toNat + 1 = x.nblk.toNat),
          keylen := s.keylen, key := s.keyBytes, block := s.paddedBlock c x x.rcvd.toNat }
  chained : (∀ err b, x.port.infl ≠ .response err b) → 0 < x.rcvd.toNat →
    x.port.cv = s.chain c x (x.rcvd.toNat - 1)
  answered : ∀ b, x.port.infl = .response false b →
    b = s.chain c x x.rcvd.toNat ∧ x.port.cv = s.chain c x x.rcvd.toNat

/-- Every busy context's session is a CBC chain. -/
def State.ChainsInv (s : State) : Prop :=
  ∀ c x, s.ctxs[c]? = some x → x.busy = true → s.ChainInv c x

/-- AES-CMAC (R1, R170, R200) of a message of `len` bytes under a key, over the provider's block
function: the subkeys are derived from the key. -/
def cmac (keylen : BitVec 8) (key : List Byte) (len : Nat) (msg : Nat → Byte) : Block :=
  cmacTag keylen key (deriveSubkeys keylen key).1 (deriveSubkeys keylen key).2 len msg

/-! ### Quiescence and the work left -/

/-- The core is quiescent (R311). -/
def State.quiescent (s : State) : Prop := s.pstate ≠ .preparing ∧ ∀ x ∈ s.ctxs, x.busy = false

/-- How many steps a beat in flight still takes. -/
def slotWork : Slot → Nat
  | .empty => 3
  | .request _ => 2
  | .response _ _ => 1

/-- How many sequencer and provider steps a context still has before it, if the provider does not
fail: a send, an answer and a receive for every Block (R211). -/
def contextWork (x : Context) : Nat :=
  if x.busy then 3 * (x.nblk.toNat - x.rcvd.toNat) + slotWork x.port.infl - 3 else 0

/-- How many sequencer and provider steps the core still has before it. -/
def State.work (s : State) : Nat :=
  (if s.pstate = .preparing then slotWork s.drv.infl else 0) + (s.ctxs.map contextWork).sum

/-! ### What is not secret (R306) -/

/-- A port without the values on it. -/
def Port.publicView (p : Port) : Port :=
  { infl :=
      match p.infl with
      | .empty => .empty
      | .request q => .request { q with key := [], block := zeroBlock }
      | .response err _ => .response err zeroBlock
    cv := zeroBlock }

/-- A context without its message bytes and ciphertext. -/
def Context.publicView (x : Context) : Context :=
  { x with mem := [], acc := zeroBlock, port := x.port.publicView }

/-- A response without its data. -/
def Reply.publicView : Reply → Reply
  | .read resp _ => .read resp 0#32
  | .write resp => .write resp

/-- Whether a register takes secret data: key or message bytes. -/
def HostReg.secret : HostReg → Bool
  | .key _ => true
  | .msgdata8 _ => true
  | .msgdata32 _ => true
  | .id => false
  | .cfgNctx => false
  | .cfgMsgcap => false
  | .cmd => false
  | .rej => false
  | .pstat => false
  | .cstat _ => false
  | .msglen _ => false
  | .msgptr _ => false
  | .tag _ _ => false

/-- An event without the key and message bytes it carries. -/
def Event.publicView (nctx : Nat) : Event → Event
  | .host a =>
    match regAt nctx a.addr.toNat, a.op with
    | some r, .write v => .host { a with op := .write (if r.secret then 0#32 else v) }
    | _, _ => .host a
  | .sequencer x => .sequencer x
  | .provider x => .provider x
  | .reset => .reset

/-- A state without its secrets: the key, the subkeys, the messages, the Blocks on the port and in the
accumulators, the key and message bytes still to be written, and the data of the last reply. What is
left is what R306 lets host-visible behaviour depend on: command words, `KEYLEN`, `MSGLEN[c]`, addresses
and failure draws. -/
def State.publicView (s : State) : State :=
  { s with
    key := Vector.replicate 32 0#8, k1 := zeroBlock, k2 := zeroBlock, drv := s.drv.publicView,
    ctxs := s.ctxs.map Context.publicView, input := s.input.map (Event.publicView s.nctx),
    reply := s.reply.map Reply.publicView }

/-- Whether the next thing to happen is a host read of a `TAG` register, "the one value-dependent
output" (R306). -/
def readsTag (s : State) : Bool :=
  match s.input with
  | .host a :: _ =>
    match addressed a s, a.op with
    | some (.tag _ _), .read => true
    | _, _ => false
  | _ => false

/-! ### The field GF(2^128) (R154) -/

open Polynomial in
/-- The polynomial a Block stands for: "bit k of the value is the coefficient of x^k" (R154). -/
noncomputable def blockPoly (b : Block) : (ZMod 2)[X] :=
  ∑ k ∈ Finset.range 128, if b.getLsbD k then X ^ k else 0

open Polynomial in
/-- The reduction polynomial `x^128 + x^7 + x^2 + x + 1` (R154). -/
noncomputable def reductionPoly : (ZMod 2)[X] := X ^ 128 + X ^ 7 + X ^ 2 + X + 1

end Sys2Proof.Machine
end

