-- ==== Sys2Proof/Certificates/Slice0/Obligations.lean ====
section
/-!
DEFINITION. What is claimed of CMAC-CORE, one definition per claim; the provers settle them. Each
docstring names the rules of spec/ it formalises. A statement about a free value (`Config.…`) holds
whatever the value is.
-/

open Sys2Proof Sys2Proof.Machine

/-! ### The command word (spec/30_encoding.md) -/

/-- Words of the spec's decoding table decode as it says (95_test_vectors.md, VE1 to VE18). -/
def Obligations.SampleWordsDecode : Prop :=
  decode 0x01000010#32 = .ok (.prepare 16) ∧ decode 0x0100000A#32 = .ok (.prepare 10) ∧
  decode 0x010000FF#32 = .ok (.prepare 255) ∧ decode 0x02010000#32 = .ok (.mac 1) ∧
  decode 0x02FF0000#32 = .ok (.mac 255) ∧ decode 0x01000110#32 = .error .reservedField ∧
  decode 0x02008000#32 = .error .reservedField ∧ decode 0x03000000#32 = .error .reservedOpcode ∧
  decode 0x81000010#32 = .error .reservedOpcode

/-- Decoding the word of a well-formed instruction gives the instruction, for every operand (R121,
R126). -/
def Obligations.DecodeEncodeRoundTrip : Prop :=
  ∀ i : Instr, i.wellFormed = true → decode (encode i) = .ok i

/-- A word that decodes is the word of the well-formed instruction it decodes to: no two words are one
command (R121, R128). -/
def Obligations.EncodeDecodeRoundTrip : Prop :=
  ∀ (w : Word) (i : Instr), decode w = .ok i → i.wellFormed = true ∧ encode i = w

/-- R127 and R128: a `CMD` write of a reserved opcode, or of a known opcode with a reserved bit set,
sets `REJ` to `BAD_ENCODING` and changes nothing else; every other word decodes to its command. -/
def Obligations.ReservedWordsRejected : Prop :=
  ∀ (w : Word) (s : State),
    (w.extractLsb' 24 8 ≠ 0x01#8 → w.extractLsb' 24 8 ≠ 0x02#8 →
      command w s = .next { s with rej := .badEncoding }) ∧
    (w.extractLsb' 24 8 = 0x01#8 → w.extractLsb' 8 16 ≠ 0#16 →
      command w s = .next { s with rej := .badEncoding }) ∧
    (w.extractLsb' 24 8 = 0x02#8 → w.extractLsb' 0 16 ≠ 0#16 →
      command w s = .next { s with rej := .badEncoding }) ∧
    (w.extractLsb' 24 8 = 0x01#8 → w.extractLsb' 8 16 = 0#16 →
      decode w = .ok (.prepare (w.extractLsb' 0 8).toNat)) ∧
    (w.extractLsb' 24 8 = 0x02#8 → w.extractLsb' 0 16 = 0#16 →
      decode w = .ok (.mac (w.extractLsb' 16 8).toNat))

/-! ### Block algebra (spec/40_block_algebra.md) -/

/-- R150: `XORINTO` byte by byte, its laws and the rule's example. -/
def Obligations.XorIntoIsBytewise : Prop :=
  (∀ d s u : Block,
    (∀ i, i < 16 → blockByte (xorInto d s) i = blockByte d i ^^^ blockByte s i) ∧
    xorInto d s = d ^^^ s ∧
    xorInto d zeroBlock = d ∧ xorInto d d = zeroBlock ∧ xorInto (xorInto d s) s = d ∧
    xorInto d s = xorInto s d ∧ xorInto (xorInto d s) u = xorInto d (xorInto s u)) ∧
  xorInto 0x6bc1bee22e409f96e93d7e117393172a#128 0xfbeed618357133667c85e08f7236a8de#128 =
    0x902f68fa1b31acf095b89e9e01a5bff4#128

/-- R153: `DOUBLE` byte by byte. -/
def Obligations.DoubleByteByByte : Prop :=
  ∀ b : Block,
    (∀ i, i < 15 →
      blockByte (double b) i = (blockByte b i <<< 1) ||| (blockByte b (i + 1) >>> 7)) ∧
    blockByte (double b) 15 =
      (blockByte b 15 <<< 1) ^^^ (0x87#8 &&& (if blockByte b 0 >>> 7 = 1#8 then 0xFF#8 else 0x00#8))

/-- R154: `DOUBLE` is multiplication by `x` in GF(2^128) with reduction polynomial
`x^128 + x^7 + x^2 + x + 1`. -/
def Obligations.DoubleMultipliesByX : Prop :=
  ∀ b : Block, blockPoly (double b) = (Polynomial.X * blockPoly b) %ₘ reductionPoly

/-- R156 (h): bit 0 of the result is the dropped bit, and `DOUBLE` is a bijection with the inverse the
rule gives. -/
def Obligations.DoubleIsInvertible : Prop :=
  ∀ b : Block,
    (double b).getLsbD 0 = b.getLsbD 127 ∧
    ((double b ^^^ (if (double b).getLsbD 0 then 0x87#128 else 0#128)) >>> 1) |||
      ((BitVec.ofBool ((double b).getLsbD 0)).setWidth 128 <<< 127) = b ∧
    double (((b ^^^ (if b.getLsbD 0 then 0x87#128 else 0#128)) >>> 1) |||
      ((BitVec.ofBool (b.getLsbD 0)).setWidth 128 <<< 127)) = b

/-! ### Padding (spec/42_padding.md) -/

/-- R182: the length analyser, for every 32-bit length. -/
def Obligations.LengthAnalyser : Prop :=
  ∀ len : Nat, len < 2 ^ 32 →
    (complete len = true ↔ 0 < len ∧ len % 16 = 0) ∧
    nblk len = (if len = 0 then 1 else (len + 15) / 16) ∧
    1 ≤ nblk len ∧ nblk len ≤ 2 ^ 28 ∧
    lastBytes len + 16 * (nblk len - 1) = len ∧ lastBytes len ≤ 16 ∧
    (lastBytes len = 0 ↔ len = 0) ∧ (lastBytes len = 16 ↔ complete len = true) ∧
    (0 < len → complete len = false → lastBytes len = len % 16) ∧
    (0 < len → nblk len = (len >>> 4) + (if len &&& 15 ≠ 0 then 1 else 0)) ∧
    padlen len = 16 * nblk len ∧
    padlen len = (if complete len then len else len + 1 + (15 - len % 16))

/-- R186: the padded Blocks of any context, byte by byte, and their concatenation is `PAD` of its
message (R180, R181). The value of a message byte the host has not written is a free value
(notes/assumptions/7.md). -/
def Obligations.PaddedBlocksArePad : Prop :=
  ∀ (s : State) (c : Nat) (x : Context),
    (∀ i j, i + 1 < nblk x.msglen.toNat → j < 16 →
      blockByte (s.paddedBlock c x i) j = messageByte s.resets c x (16 * i + j)) ∧
    (∀ j, j < 16 →
      blockByte (s.paddedBlock c x (nblk x.msglen.toNat - 1)) j =
        (if j < lastBytes x.msglen.toNat then
            messageByte s.resets c x (16 * (nblk x.msglen.toNat - 1) + j)
          else if j = lastBytes x.msglen.toNat then 0x80#8 else 0x00#8) ^^^
        blockByte (if complete x.msglen.toNat then s.k1 else s.k2) j) ∧
    ((List.range (nblk x.msglen.toNat)).flatMap fun i => blockBytes (s.paddedBlock c x i)) =
      pad (message s.resets c x) s.k1 s.k2

/-- R183: the empty message gives one Block, 0x80 and fifteen zero bytes, exclusive-ored with `K2`, and
a `MAC` with `MSGLEN[c] = 0` is accepted like any other. -/
def Obligations.EmptyMessageIsOneBlock : Prop :=
  complete 0 = false ∧ nblk 0 = 1 ∧ lastBytes 0 = 0 ∧
  (∀ (msg : Nat → Byte) (k1 k2 : Block),
    paddedBlock 0 msg k1 k2 0 = 0x80000000000000000000000000000000#128 ^^^ k2) ∧
  (∀ (s : State) (c : Nat) (x : Context), s.pstate = .prepared → s.ctxs[c]? = some x →
    x.busy = false → x.msglen = 0#32 →
    ∃ t, exec (.mac c) s = .next t ∧ t.rej = .accepted ∧ t.busy c = true)

/-- R87: no message byte at or above the length is read: two messages that agree below `len` have the
same padded Blocks and the same tag. -/
def Obligations.OnlyTheMessageIsRead : Prop :=
  ∀ (len : Nat) (m₁ m₂ : Nat → Byte), (∀ a, a < len → m₁ a = m₂ a) →
    ∀ (keylen : BitVec 8) (key : List Byte) (k1 k2 : Block),
      (∀ i, i < nblk len → paddedBlock len m₁ k1 k2 i = paddedBlock len m₂ k1 k2 i) ∧
      cmacTag keylen key k1 k2 len m₁ = cmacTag keylen key k1 k2 len m₂

/-! ### The two commands (spec/44_commands.md) -/

/-- R222: an accepted `PREPARE` with an illegal length records `InvalidKeyLength` and changes nothing
else. -/
def Obligations.PrepareIllegalLength : Prop :=
  ∀ (s : State) (n : Nat), s.pstate = .unprepared → n ≠ 16 → n ≠ 24 → n ≠ 32 →
    exec (.prepare n) s = .next { s with rej := .accepted, perr := .invalidKeyLength }

/-- R223: an accepted `PREPARE` with a legal length starts the derivation, and `KEY` is locked from then
on. This is where `PREPARE` completes: the command is done in the step of the write. -/
def Obligations.PrepareLegalLengthStarts : Prop :=
  ∀ (s : State) (n : Nat), s.pstate = .unprepared → n = 16 ∨ n = 24 ∨ n = 32 →
    ∃ t, exec (.prepare n) s = .next t ∧
      t = { s with
            rej := .accepted, perr := .noError, keylen := BitVec.ofNat 8 n, dsent := false,
            pstate := .preparing } ∧
      ∀ k, writeLocked (.key k) t = true

/-- R221: `PREPARE` is accepted in `UNPREPARED` and only there: `BAD_STATE` in `PREPARING` and
`PREPARED`, `FATAL_STATE` in `FATAL`. -/
def Obligations.PrepareAcceptedOnlyUnprepared : Prop :=
  ∀ (s : State) (n : Nat),
    (s.pstate = .unprepared → ∃ t, exec (.prepare n) s = .next t ∧ t.rej = .accepted) ∧
    (s.pstate = .preparing ∨ s.pstate = .prepared →
      exec (.prepare n) s = .next { s with rej := .badState }) ∧
    (s.pstate = .fatal → exec (.prepare n) s = .next { s with rej := .fatalState })

/-- R230: a `MAC` that meets the acceptance conditions of R228 starts the computation of its context, and
the context's message is locked from then on. -/
def Obligations.MacAcceptedStarts : Prop :=
  ∀ (s : State) (c : Nat) (x : Context), s.pstate = .prepared → s.ctxs[c]? = some x →
    x.busy = false → x.msglen ≤ s.msgcap →
    ∃ t, exec (.mac c) s = .next t ∧
      t = { s with
            rej := .accepted,
            ctxs := s.ctxs.set c
              { x with
                busy := true, done := false, cerr := .noError,
                nblk := BitVec.ofNat 32 (nblk x.msglen.toNat), sent := 0#32, rcvd := 0#32,
                acc := zeroBlock } } ∧
      writeLocked (.msglen c) t = true ∧ writeLocked (.msgptr c) t = true ∧
      writeLocked (.msgdata8 c) t = true ∧ writeLocked (.msgdata32 c) t = true

/-- R229: the rejections particular to `MAC`, each changing only `REJ`. -/
def Obligations.MacRejectionsChangeOnlyRej : Prop :=
  ∀ (s : State) (c : Nat),
    (s.pstate = .unprepared ∨ s.pstate = .preparing →
      exec (.mac c) s = .next { s with rej := .badState }) ∧
    (s.pstate = .prepared → s.nctx ≤ c → exec (.mac c) s = .next { s with rej := .badContext }) ∧
    (∀ x, s.pstate = .prepared → s.ctxs[c]? = some x → x.busy = true →
      exec (.mac c) s = .next { s with rej := .contextBusy }) ∧
    (∀ x, s.pstate = .prepared → s.ctxs[c]? = some x → x.busy = false → s.msgcap < x.msglen →
      exec (.mac c) s = .next { s with rej := .badLength })

/-- R236: what the host's write of v to `CMD` does, by the first condition that holds: each rejection
writes `REJ` only, an accepted command has the effects of R222, R223 or R230, and the bus response is
OK in every case. -/
def Obligations.CommandChecksInOrder : Prop :=
  ∀ (s s₀ : State) (v : Word), s₀ = { s with reply := some (.write .ok) } →
    perform (cmdWrite v) s = .next
      (match decode v with
      | .error _ => { s₀ with rej := .badEncoding }
      | .ok (.prepare n) =>
        if s.pstate = .fatal then { s₀ with rej := .fatalState }
        else if s.pstate ≠ .unprepared then { s₀ with rej := .badState }
        else if n = 16 ∨ n = 24 ∨ n = 32 then
          { s₀ with
            rej := .accepted, perr := .noError, keylen := BitVec.ofNat 8 n, dsent := false,
            pstate := .preparing }
        else { s₀ with rej := .accepted, perr := .invalidKeyLength }
      | .ok (.mac c) =>
        if s.pstate = .fatal then { s₀ with rej := .fatalState }
        else if s.pstate ≠ .prepared then { s₀ with rej := .badState }
        else
          match s.ctxs[c]? with
          | none => { s₀ with rej := .badContext }
          | some x =>
            if x.busy = true then { s₀ with rej := .contextBusy }
            else if s.msgcap < x.msglen then { s₀ with rej := .badLength }
            else
              { s₀ with
                rej := .accepted,
                ctxs := s.ctxs.set c
                  { x with
                    busy := true, done := false, cerr := .noError,
                    nblk := BitVec.ofNat 32 (nblk x.msglen.toNat), sent := 0#32, rcvd := 0#32,
                    acc := zeroBlock } })

/-- A step whose next event is a `CMD` write of the word of an instruction is `exec` of that
instruction, with the event taken off the input and the response OK given to the host; of a word that
is no command, it is the rejection (R120, R236). That the input is a list of events is the model's
choice (notes/assumptions/2.md). -/
def Obligations.StepRunsDecodedCommand : Prop :=
  ∀ (s : State) (v : Word) (rest : List Event), s.input = cmdWrite v :: rest →
    (∀ i, decode v = .ok i →
      step s = onNext (exec i { s with input := rest }) (setReply (.write .ok))) ∧
    (∀ e, decode v = .error e →
      step s = .next { s with input := rest, rej := .badEncoding, reply := some (.write .ok) })

/-- What a command leaves unchanged (R225 (e), R229, R230): the key, the subkeys, the derivation's port,
every message byte, length and pointer, every port, and every context but the one it names. -/
def Obligations.CommandFrame : Prop :=
  ∀ (i : Instr) (s t : State), exec i s = .next t →
    t.key = s.key ∧ t.k1 = s.k1 ∧ t.k2 = s.k2 ∧ t.drv = s.drv ∧ t.msgcap = s.msgcap ∧
    t.nctx = s.nctx ∧ t.input = s.input ∧ t.reply = s.reply ∧ t.resets = s.resets ∧
    t.draws = s.draws ∧ t.picks = s.picks ∧
    (∀ n, i = .prepare n → t.ctxs = s.ctxs) ∧
    (∀ c, i = .mac c →
      t.keylen = s.keylen ∧ t.perr = s.perr ∧ t.dsent = s.dsent ∧ t.pstate = s.pstate) ∧
    (∀ c x, s.ctxs[c]? = some x →
      ∃ y, t.ctxs[c]? = some y ∧ y.msglen = x.msglen ∧ y.msgptr = x.msgptr ∧ y.port = x.port ∧
        (∀ a, y.mem.read a = x.mem.read a) ∧ (i ≠ .mac c → y = x))

/-- R258 and R253: the alignment check never fails, so no step enters `FATAL`. -/
def Obligations.FatalIsNeverEntered : Prop :=
  (∀ len : Nat, padlen len % 16 = 0) ∧
  ∀ s t : State, step s = .next t → t.pstate = .fatal → s.pstate = .fatal

/-- R259: what `MalformedInput` does when it is raised for a context, and what `FATAL` means. -/
def Obligations.MalformedInputIsFatal : Prop :=
  (∀ (s : State) (c : Nat) (x : Context), s.ctxs[c]? = some x →
    macMalformed c s =
      { s with
        rej := .accepted, pstate := .fatal,
        ctxs := s.ctxs.set c
          { x with cerr := .malformedInput, done := true, busy := false, acc := zeroBlock } }) ∧
  (∀ (s : State) (i : Instr), s.pstate = .fatal →
    exec i s = .next { s with rej := .fatalState }) ∧
  (∀ (s : State) (k : Nat), s.pstate = .fatal → writeLocked (.key k) s = true) ∧
  (∀ s t : State, s.pstate = .fatal → step s = .next t →
    t.pstate = .fatal ∨ (t.pstate = .unprepared ∧ ∃ rest, s.input = .reset :: rest))

/-! ### Subkey derivation (spec/41_subkey_derivation.md) -/

/-- R171: the derivation send step. That `INFL[SID_DRV]` is `NONE` then, R171 derives and R97 requires
(notes/assumptions/10.md). -/
def Obligations.DerivationSend : Prop :=
  ∀ s : State, s.pstate = .preparing → s.dsent = false → s.drv.infl = .empty →
    perform (.sequencer .derivation) s = .next
      { s with
        drv := { s.drv with
          infl := .request { first := true, last := true, keylen := s.keylen, key := s.keyBytes,
                             block := zeroBlock } },
        dsent := true }

/-- R174, R175: the derivation receive step, on success and on failure. -/
def Obligations.DerivationReceive : Prop :=
  ∀ (s : State) (b : Block), s.pstate = .preparing → s.dsent = true →
    (s.drv.infl = .response false b →
      perform (.sequencer .derivation) s = .next
        { s with
          drv := { s.drv with infl := .empty }, k1 := double b, k2 := double (double b),
          dsent := false, pstate := .prepared }) ∧
    (s.drv.infl = .response true b →
      perform (.sequencer .derivation) s = .next
        { s with
          drv := { s.drv with infl := .empty }, perr := .providerFailure, dsent := false,
          pstate := .unprepared })

/-- R63 (c): with the invariant of R63, every step keeps the subkeys those of the key: `K1` and `K2` are
`DERIVE` of `KEY` and `KEYLEN` whenever the core is `PREPARED` or `FATAL`. -/
def Obligations.SubkeysStayDerived : Prop :=
  ∀ s t : State, s.Inv → s.SubkeyInv → step s = .next t → t.SubkeyInv

/-! ### The tag engine (spec/43_tag_engine.md) -/

/-- R203: the send step of a context. That `INFL[c]` is `NONE` then, R203 derives and R97 requires
(notes/assumptions/10.md). -/
def Obligations.TagSendStep : Prop :=
  ∀ (s : State) (c : Nat) (x : Context), s.ctxs[c]? = some x → x.busy = true →
    x.port.infl = .empty → x.sent = x.rcvd → x.sent < x.nblk →
    perform (.sequencer (.context c)) s = .next
      { s with
        ctxs := s.ctxs.set c
          { x with
            sent := x.sent + 1#32,
            port := { x.port with
              infl := .request
                { first := decide (x.sent.toNat = 0),
                  last := decide (x.sent.toNat = x.nblk.toNat - 1),
                  keylen := s.keylen, key := s.keyBytes,
                  block := s.paddedBlock c x x.sent.toNat } } } }

/-- R204: the receive step of a Block that is not the last. -/
def Obligations.TagReceiveStep : Prop :=
  ∀ (s : State) (c : Nat) (x : Context) (b : Block), s.ctxs[c]? = some x → x.busy = true →
    x.port.infl = .response false b → x.rcvd.toNat + 1 < x.nblk.toNat →
    perform (.sequencer (.context c)) s = .next
      { s with
        ctxs := s.ctxs.set c
          { x with rcvd := x.rcvd + 1#32, acc := b, port := { x.port with infl := .empty } } }

/-- R205: the receive step of the last Block; from then on the tag reads as its words. -/
def Obligations.TagReceiveLastStep : Prop :=
  ∀ (s : State) (c : Nat) (x : Context) (b : Block), s.ctxs[c]? = some x → x.busy = true →
    x.port.infl = .response false b → x.rcvd.toNat + 1 = x.nblk.toNat → x.cerr = .noError →
    ∃ t, perform (.sequencer (.context c)) s = .next t ∧
      t = { s with
            ctxs := s.ctxs.set c
              { x with
                rcvd := x.rcvd + 1#32, acc := b, busy := false, done := true,
                port := { x.port with infl := .empty } } } ∧
      (∀ k, readReg (.tag c k) t = blockWord b k) ∧
      writeLocked (.msglen c) t = false ∧ writeLocked (.msgptr c) t = false ∧
      writeLocked (.msgdata8 c) t = false ∧ writeLocked (.msgdata32 c) t = false

/-- R206: the receive step on a failure, at any Block index; the tag then reads as 0. -/
def Obligations.TagFailureStep : Prop :=
  ∀ (s : State) (c : Nat) (x : Context) (b : Block), s.ctxs[c]? = some x → x.busy = true →
    x.port.infl = .response true b →
    ∃ t, perform (.sequencer (.context c)) s = .next t ∧
      t = { s with
            ctxs := s.ctxs.set c
              { x with
                cerr := .providerFailure, acc := zeroBlock, busy := false, done := true,
                port := { x.port with infl := .empty } } } ∧
      ∀ k, readReg (.tag c k) t = 0#32

/-- R102: the provider's step on the derivation session and on a context's session. The failure draw
and the Block of a failed answer are free values. -/
def Obligations.ProviderAnswers : Prop :=
  (∀ (s : State) (q : Request), s.drv.infl = .request q →
    perform (.provider .derivation) s = .next
      { s with
        draws := s.draws + 1,
        drv :=
          if Config.providerFails s.draws then
            { s.drv with infl := .response true (Config.failedBlock s.draws) }
          else
            { infl := .response false
                (Config.cipher q.keylen q.key (q.block ^^^ (if q.first then zeroBlock else s.drv.cv))),
              cv := Config.cipher q.keylen q.key
                (q.block ^^^ (if q.first then zeroBlock else s.drv.cv)) } }) ∧
  (∀ (s : State) (c : Nat) (x : Context) (q : Request), s.ctxs[c]? = some x →
    x.port.infl = .request q →
    perform (.provider (.context c)) s = .next
      { s with
        draws := s.draws + 1,
        ctxs := s.ctxs.set c
          { x with
            port :=
              if Config.providerFails s.draws then
                { x.port with infl := .response true (Config.failedBlock s.draws) }
              else
                { infl := .response false
                    (Config.cipher q.keylen q.key
                      (q.block ^^^ (if q.first then zeroBlock else x.port.cv))),
                  cv := Config.cipher q.keylen q.key
                    (q.block ^^^ (if q.first then zeroBlock else x.port.cv)) } } })

/-- R97, R103, R204: every step keeps every busy context's session a CBC chain of its padded message. -/
def Obligations.SessionsStayChains : Prop :=
  ∀ s t : State, s.Inv → s.ChainsInv → step s = .next t → t.ChainsInv

/-- R1, R200, R201, R211: when a computation ends without an error, the tag the host can read is the
AES-CMAC of the message under the key, and exactly `nblk(MSGLEN[c])` beats went each way. -/
def Obligations.CompletedTagIsCmac : Prop :=
  ∀ (s t : State) (c : Nat) (x y : Context), s.Inv → s.SubkeyInv → s.ChainsInv →
    s.ctxs[c]? = some x → x.busy = true → step s = .next t → t.ctxs[c]? = some y →
    y.done = true → y.cerr = .noError →
    y.acc = cmac s.keylen s.keyBytes x.msglen.toNat (messageByte s.resets c x) ∧
    (∀ k, readReg (.tag c k) t = blockWord y.acc k) ∧
    y.sent.toNat = nblk x.msglen.toNat ∧ y.rcvd.toNat = nblk x.msglen.toNat

/-- R50: a sequencer or provider step of context c changes context c only, and of the shared state
nothing (the counter of provider draws is the model's own). -/
def Obligations.ContextStepsArePrivate : Prop :=
  ∀ (s t : State) (c : Nat) (e : Event),
    e = .sequencer (.context c) ∨ e = .provider (.context c) → perform e s = .next t →
    t = { s with ctxs := t.ctxs, draws := t.draws } ∧ t.nctx = s.nctx ∧
    (∀ d, d ≠ c → t.ctxs[d]? = s.ctxs[d]?) ∧
    (e = .sequencer (.context c) → t.draws = s.draws)

/-- R209 (c), R232: sequencer steps of different sessions commute, so their order is no matter. -/
def Obligations.SequencerStepsCommute : Prop :=
  ∀ (s : State) (c d : Nat), c ≠ d →
    ((sequencerStep? (.context d) ((sequencerStep? (.context c) s).getD s)).getD
        ((sequencerStep? (.context c) s).getD s)) =
    ((sequencerStep? (.context c) ((sequencerStep? (.context d) s).getD s)).getD
        ((sequencerStep? (.context d) s).getD s))

/-- R231, R80: the result of a computation stays as it is until the next `MAC` for its context is
accepted or the core is reset. -/
def Obligations.ResultStaysReadable : Prop :=
  ∀ (s t : State) (c : Nat) (x : Context), s.Inv → s.ctxs[c]? = some x → x.done = true →
    step s = .next t →
    (∃ y, t.ctxs[c]? = some y ∧ y.done = true ∧ y.cerr = x.cerr ∧ y.acc = x.acc) ∨
    (∃ y, t.ctxs[c]? = some y ∧ y.busy = true ∧ t.rej = .accepted) ∨
    (∃ rest, s.input = .reset :: rest)

/-! ### The host port (spec/20_memory.md, spec/10_state.md) -/

/-- R70, R78 (6), R79: an aligned 32-bit read of a mapped register answers OK with the value of the
register; every other read answers ERR with 0 (R78 (1) to (3)); and no read changes anything but what
the host was told. No read is locked (R77): the state is any state. What each register's value is,
ReadOnlyAndWriteOnly, LengthAndPointerWrites, TagReadsAreGated, StatusWordFields and
IdentificationIsConstant say. -/
def Obligations.ReadsHaveNoEffect : Prop :=
  ∀ (s : State) (width : AccessWidth) (addr : BitVec 12),
    (∀ r, width = .w32 → addr.toNat % 4 = 0 → regAt s.nctx addr.toNat = some r →
      perform (.host { width := width, addr := addr, op := .read }) s =
        .next { s with reply := some (.read .ok (readReg r s)) }) ∧
    (width ≠ .w32 ∨ addr.toNat % 4 ≠ 0 ∨ regAt s.nctx addr.toNat = none →
      perform (.host { width := width, addr := addr, op := .read }) s =
        .next { s with reply := some (.read .err 0#32) })

/-- R73, R74, R76: an access of another width, a misaligned one and one to an unmapped offset are
refused: ERR, data 0, no state change. -/
def Obligations.RefusedAccessesChangeNothing : Prop :=
  ∀ (s : State) (a : HostAccess),
    a.width ≠ .w32 ∨ a.addr.toNat % 4 ≠ 0 ∨
      (0x018 ≤ a.addr.toNat ∧ a.addr.toNat < 0x020) ∨
      (0x040 ≤ a.addr.toNat ∧ a.addr.toNat < 0x100) ∨
      (∃ c, 0x100 + 0x40 * c + 0x14 ≤ a.addr.toNat ∧ a.addr.toNat < 0x100 + 0x40 * c + 0x20) ∨
      (∃ c, 0x100 + 0x40 * c + 0x30 ≤ a.addr.toNat ∧ a.addr.toNat < 0x100 + 0x40 * c + 0x40) ∨
      0x100 + 0x40 * s.nctx ≤ a.addr.toNat →
    perform (.host a) s =
      .next { s with
              reply := some (match a.op with
                | .read => .read .err 0#32
                | .write _ => .write .err) }

/-- R42, R48, R72: every offset the map lists is the register it says, for every context below NCTX. -/
def Obligations.RegisterMap : Prop :=
  ∀ n c : Nat, c < n →
    regAt n 0x000 = some .id ∧ regAt n 0x004 = some .cfgNctx ∧ regAt n 0x008 = some .cfgMsgcap ∧
    regAt n 0x00C = some .cmd ∧ regAt n 0x010 = some .rej ∧ regAt n 0x014 = some .pstat ∧
    (∀ k, k < 8 → regAt n (0x020 + 4 * k) = some (.key k)) ∧
    regAt n (0x100 + 0x40 * c) = some (.cstat c) ∧
    regAt n (0x100 + 0x40 * c + 0x04) = some (.msglen c) ∧
    regAt n (0x100 + 0x40 * c + 0x08) = some (.msgptr c) ∧
    regAt n (0x100 + 0x40 * c + 0x0C) = some (.msgdata8 c) ∧
    regAt n (0x100 + 0x40 * c + 0x10) = some (.msgdata32 c) ∧
    ∀ k, k < 4 → regAt n (0x100 + 0x40 * c + 0x20 + 4 * k) = some (.tag c k)

/-- R77: a write to a locked register is refused and changes nothing; in particular the pointer does
not advance. -/
def Obligations.LockedWritesRefused : Prop :=
  ∀ (s : State) (v : Word) (addr : BitVec 12) (r : HostReg),
    addr.toNat % 4 = 0 → regAt s.nctx addr.toNat = some r →
    (∃ k, r = .key k ∧ s.pstate ≠ .unprepared) ∨
      (∃ c, (r = .msglen c ∨ r = .msgptr c ∨ r = .msgdata8 c ∨ r = .msgdata32 c) ∧ s.busy c = true) →
    perform (.host { width := .w32, addr := addr, op := .write v }) s =
      .next { s with reply := some (.write .err) }

/-- R31: a write of v to `KEYk` while `UNPREPARED` stores four key bytes, the first from bits [31:24],
and changes nothing else. -/
def Obligations.KeyWriteStoresFourBytes : Prop :=
  ∀ (s : State) (k : Nat) (v : Word), s.pstate = .unprepared → k < 8 →
    ∃ key : Vector Byte 32,
      perform (.host { width := .w32, addr := BitVec.ofNat 12 (0x020 + 4 * k), op := .write v }) s =
        .next { s with key := key, reply := some (.write .ok) } ∧
      key[4 * k]? = some (v.extractLsb' 24 8) ∧ key[4 * k + 1]? = some (v.extractLsb' 16 8) ∧
      key[4 * k + 2]? = some (v.extractLsb' 8 8) ∧ key[4 * k + 3]? = some (v.extractLsb' 0 8) ∧
      ∀ i, i < 32 → i / 4 ≠ k → key[i]? = s.key[i]?

/-- R52, R53: a write to `MSGLEN[c]` or `MSGPTR[c]` of an idle context stores any 32-bit value and
changes nothing else. R48, R77: a read of either returns its value, also while the context is busy. -/
def Obligations.LengthAndPointerWrites : Prop :=
  ∀ (s : State) (c : Nat) (x : Context), s.nctx ≤ 32 → s.ctxs[c]? = some x →
    (∀ v : Word, x.busy = false →
      perform (.host { width := .w32, addr := BitVec.ofNat 12 (contextBase c + 0x04),
                       op := .write v }) s =
        .next { s with ctxs := s.ctxs.set c { x with msglen := v }, reply := some (.write .ok) } ∧
      perform (.host { width := .w32, addr := BitVec.ofNat 12 (contextBase c + 0x08),
                       op := .write v }) s =
        .next { s with ctxs := s.ctxs.set c { x with msgptr := v }, reply := some (.write .ok) }) ∧
    perform (.host { width := .w32, addr := BitVec.ofNat 12 (contextBase c + 0x04), op := .read }) s =
      .next { s with reply := some (.read .ok x.msglen) } ∧
    perform (.host { width := .w32, addr := BitVec.ofNat 12 (contextBase c + 0x08), op := .read }) s =
      .next { s with reply := some (.read .ok x.msgptr) }

/-- R82: a write to `MSGDATA8[c]` of an idle context stores v[7:0] at the pointer if it is below
MSGCAP, and advances the pointer by 1 modulo 2^32; every other byte is unchanged. -/
def Obligations.Data8StoresOneByte : Prop :=
  ∀ (s : State) (c : Nat) (x : Context) (v : Word), s.nctx ≤ 32 → s.ctxs[c]? = some x →
    x.busy = false →
    ∃ m : Memory,
      perform (.host { width := .w32, addr := BitVec.ofNat 12 (contextBase c + 0x0C),
                       op := .write v }) s =
        .next { s with
                ctxs := s.ctxs.set c { x with mem := m, msgptr := x.msgptr + 1#32 },
                reply := some (.write .ok) } ∧
      ∀ a, m.read a =
        (if a = x.msgptr.toNat ∧ x.msgptr < s.msgcap then some (v.extractLsb' 0 8) else x.mem.read a)

/-- R83: a write to `MSGDATA32[c]` of an idle context stores byte j of the word, the first from bits
[31:24], at `(p + j) mod 2^32` if that is below MSGCAP, and advances the pointer by 4; every other byte
is unchanged; it is the same as four `MSGDATA8` writes of the four bytes. -/
def Obligations.Data32StoresFourBytes : Prop :=
  ∀ (s : State) (c : Nat) (x : Context) (v : Word), s.nctx ≤ 32 → s.ctxs[c]? = some x →
    x.busy = false →
    ∃ m : Memory,
      perform (.host { width := .w32, addr := BitVec.ofNat 12 (contextBase c + 0x10),
                       op := .write v }) s =
        .next { s with
                ctxs := s.ctxs.set c { x with mem := m, msgptr := x.msgptr + 4#32 },
                reply := some (.write .ok) } ∧
      (∀ j, j < 4 → (x.msgptr.toNat + j) % 2 ^ 32 < s.msgcap.toNat →
        m.read ((x.msgptr.toNat + j) % 2 ^ 32) = some (v.extractLsb' (24 - 8 * j) 8)) ∧
      (∀ a, (∀ j, j < 4 → a ≠ (x.msgptr.toNat + j) % 2 ^ 32) ∨ s.msgcap.toNat ≤ a →
        m.read a = x.mem.read a) ∧
      writeData32 c v s =
        writeData8 c ((v.extractLsb' 0 8).setWidth 32)
          (writeData8 c ((v.extractLsb' 8 8).setWidth 32)
            (writeData8 c ((v.extractLsb' 16 8).setWidth 32)
              (writeData8 c ((v.extractLsb' 24 8).setWidth 32) s)))

/-- R43: a write to a read-only register is ignored with response OK, and a write-only register reads
as 0 with response OK. -/
def Obligations.ReadOnlyAndWriteOnly : Prop :=
  ∀ (s : State) (addr : BitVec 12) (r : HostReg),
    addr.toNat % 4 = 0 → regAt s.nctx addr.toNat = some r →
    (∀ v : Word,
      (r = .id ∨ r = .cfgNctx ∨ r = .cfgMsgcap ∨ r = .rej ∨ r = .pstat ∨ (∃ c, r = .cstat c) ∨
        ∃ c k, r = .tag c k) →
      perform (.host { width := .w32, addr := addr, op := .write v }) s =
        .next { s with reply := some (.write .ok) }) ∧
    ((r = .cmd ∨ (∃ k, r = .key k) ∨ (∃ c, r = .msgdata8 c) ∨ ∃ c, r = .msgdata32 c) →
      perform (.host { width := .w32, addr := addr, op := .read }) s =
        .next { s with reply := some (.read .ok 0#32) })

/-- R55: `TAGk[c]` reads word k of `ACC[c]`, first byte in bits [31:24], when `DONE[c] = 1` and
`CERR[c] = 0`, and 0 otherwise. -/
def Obligations.TagReadsAreGated : Prop :=
  ∀ (s : State) (c : Nat) (x : Context) (k : Nat), s.ctxs[c]? = some x → k < 4 →
    readReg (.tag c k) s =
      (if x.done = true ∧ x.cerr = .noError then
        blockByte x.acc (4 * k) ++ blockByte x.acc (4 * k + 1) ++ blockByte x.acc (4 * k + 2) ++
          blockByte x.acc (4 * k + 3)
      else 0#32)

/-- R46, R47, R51: the fields of `REJ`, `PSTAT` and `CSTAT[c]` and zeros elsewhere, with the codes of
R34, R132 and R133. -/
def Obligations.StatusWordFields : Prop :=
  (∀ s : State,
    (readReg .rej s).extractLsb' 0 4 = rejectionCode s.rej ∧
    (readReg .rej s).extractLsb' 4 28 = 0#28) ∧
  (∀ s : State,
    (readReg .pstat s).extractLsb' 0 2 = prepCode s.pstate ∧
    (readReg .pstat s).extractLsb' 2 2 = 0#2 ∧
    (readReg .pstat s).extractLsb' 4 4 = errorCode s.perr ∧
    (readReg .pstat s).extractLsb' 8 8 = s.keylen ∧
    (readReg .pstat s).extractLsb' 16 16 = 0#16) ∧
  (∀ (s : State) (c : Nat) (x : Context), s.ctxs[c]? = some x →
    (readReg (.cstat c) s).getLsbD 0 = x.busy ∧ (readReg (.cstat c) s).getLsbD 1 = x.done ∧
    (readReg (.cstat c) s).extractLsb' 2 2 = 0#2 ∧
    (readReg (.cstat c) s).extractLsb' 4 4 = errorCode x.cerr ∧
    (readReg (.cstat c) s).extractLsb' 8 24 = 0#24) ∧
  prepCode .unprepared = 0#2 ∧ prepCode .preparing = 1#2 ∧ prepCode .prepared = 2#2 ∧
  prepCode .fatal = 3#2 ∧ errorCode .noError = 0#4 ∧ errorCode .invalidKeyLength = 1#4 ∧
  errorCode .providerFailure = 2#4 ∧ errorCode .malformedInput = 3#4 ∧
  rejectionCode .accepted = 0#4 ∧ rejectionCode .badEncoding = 1#4 ∧
  rejectionCode .fatalState = 2#4 ∧ rejectionCode .badState = 3#4 ∧
  rejectionCode .badContext = 4#4 ∧ rejectionCode .contextBusy = 5#4 ∧
  rejectionCode .badLength = 6#4

/-- R44: `ID`, `CFG_NCTX` and `CFG_MSGCAP` read as constants of the instance: no step, not even reset,
changes what they read. -/
def Obligations.IdentificationIsConstant : Prop :=
  ∀ s t : State, step s = .next t →
    readReg .id s = 0x434D4143#32 ∧ readReg .id t = 0x434D4143#32 ∧
    readReg .cfgNctx s = BitVec.ofNat 32 s.nctx ∧ readReg .cfgNctx t = readReg .cfgNctx s ∧
    readReg .cfgMsgcap s = s.msgcap ∧ readReg .cfgMsgcap t = readReg .cfgMsgcap s ∧ t.nctx = s.nctx

/-- R39, R33: while `PSTATE` is not `UNPREPARED` no step but reset changes `KEY` or `KEYLEN`, and no
step but the derivation's receive step and reset changes `K1` or `K2`; a read of a `KEYk` is 0. -/
def Obligations.KeyAndSubkeysAreImmutable : Prop :=
  (∀ s t : State, step s = .next t → (∀ rest, s.input ≠ .reset :: rest) →
    (s.pstate ≠ .unprepared → t.key = s.key ∧ t.keylen = s.keylen) ∧
    ((t.k1 = s.k1 ∧ t.k2 = s.k2) ∨
      ∃ b, s.pstate = .preparing ∧ s.dsent = true ∧ s.drv.infl = .response false b ∧
        t.k1 = double b ∧ t.k2 = double (double b) ∧ t.pstate = .prepared)) ∧
  ∀ (s : State) (k : Nat), readReg (.key k) s = 0#32

/-- R34: the legal transitions of `PSTATE`. -/
def Obligations.PrepStateTransitions : Prop :=
  ∀ s t : State, step s = .next t →
    t.pstate = s.pstate ∨
    (s.pstate = .unprepared ∧ t.pstate = .preparing) ∨
    (s.pstate = .preparing ∧ t.pstate = .prepared) ∨
    (s.pstate = .preparing ∧ t.pstate = .unprepared ∧ t.perr = .providerFailure) ∨
    (t.pstate = .unprepared ∧ ∃ rest, s.input = .reset :: rest)

/-- R251, R252: `CERR[c]` never becomes `InvalidKeyLength`: it is never raised by `MAC`. -/
def Obligations.MacNeverRaisesInvalidKeyLength : Prop :=
  ∀ (s t : State), step s = .next t →
    (∀ x ∈ s.ctxs, x.cerr ≠ .invalidKeyLength) → ∀ x ∈ t.ctxs, x.cerr ≠ .invalidKeyLength

/-- R257: errors are precise: in the step in which `CERR[c]` becomes an error the computation has ended
and no tag is readable; in the step in which `PERR` becomes an error the core is `UNPREPARED` and the
subkeys are not written. -/
def Obligations.ErrorsArePrecise : Prop :=
  (∀ (s t : State) (c : Nat) (x y : Context), step s = .next t → s.ctxs[c]? = some x →
    t.ctxs[c]? = some y → y.cerr ≠ .noError → y.cerr ≠ x.cerr →
    y.done = true ∧ y.busy = false ∧ y.acc = zeroBlock ∧ ∀ k, readReg (.tag c k) t = 0#32) ∧
  (∀ s t : State, step s = .next t → t.perr ≠ .noError → t.perr ≠ s.perr →
    t.pstate = .unprepared ∧ t.k1 = s.k1 ∧ t.k2 = s.k2)

/-! ### Reset (spec/70_reset_and_hazards.md, spec/10_state.md section 8) -/

/-- R62, R290: reset gives every element of state its value, whatever was going on; the message bytes
and the provider's chain values are unspecified, which the model gives as free values
(notes/assumptions/7.md, 8.md). -/
def Obligations.ResetValues : Prop :=
  ∀ s : State, ∃ t, perform .reset s = .next t ∧
    t.pstate = .unprepared ∧ t.key = Vector.replicate 32 0#8 ∧ t.keylen = 0#8 ∧
    t.k1 = zeroBlock ∧ t.k2 = zeroBlock ∧ t.perr = .noError ∧ t.rej = .accepted ∧ t.dsent = false ∧
    t.drv.infl = .empty ∧ t.nctx = s.nctx ∧ t.msgcap = s.msgcap ∧
    ∀ c x, t.ctxs[c]? = some x →
      x.busy = false ∧ x.done = false ∧ x.cerr = .noError ∧ x.msglen = 0#32 ∧ x.msgptr = 0#32 ∧
      x.nblk = 0#32 ∧ x.sent = 0#32 ∧ x.rcvd = 0#32 ∧ x.acc = zeroBlock ∧ x.port.infl = .empty ∧
      ∀ a, messageByte t.resets c x a = Config.unwrittenByte (s.resets + 1) c a

/-- The state after power-on has every value that R62 states, for the core and for every context, and is
quiescent: with no input, nothing happens (R291, R293, R311). What R62 leaves unspecified, the message
bytes and the provider's chain values, is not claimed (notes/assumptions/7.md, 8.md), nor are its
parameters, NCTX = 2 and MSGCAP = 4096, which are the model's choice (notes/assumptions/1.md). -/
def Obligations.ResetStateIsQuiet : Prop :=
  State.reset.pstate = .unprepared ∧ State.reset.key = Vector.replicate 32 0#8 ∧
  State.reset.keylen = 0#8 ∧ State.reset.k1 = zeroBlock ∧ State.reset.k2 = zeroBlock ∧
  State.reset.perr = .noError ∧ State.reset.rej = .accepted ∧ State.reset.dsent = false ∧
  State.reset.drv.infl = .empty ∧
  (∀ x ∈ State.reset.ctxs,
    x.busy = false ∧ x.done = false ∧ x.cerr = .noError ∧ x.msglen = 0#32 ∧ x.msgptr = 0#32 ∧
    x.nblk = 0#32 ∧ x.sent = 0#32 ∧ x.rcvd = 0#32 ∧ x.acc = zeroBlock ∧ x.port.infl = .empty) ∧
  State.reset.quiescent ∧ step State.reset = .next State.reset

/-! ### Invariants and whole-machine claims -/

/-- The invariants hold after every reset of every instance the parameters allow: after the reset event
in any state at all, in the state after power-on of any instance, and at `State.reset` (R12, R62, R63,
R293). -/
def Obligations.InvariantsHoldAtReset : Prop :=
  (∀ s : State, 1 ≤ s.nctx → s.nctx ≤ 32 → 16 ≤ s.msgcap.toNat →
    perform .reset s = .next (resetStep s) ∧
    (resetStep s).Inv ∧ (resetStep s).SubkeyInv ∧ (resetStep s).ChainsInv) ∧
  (∀ (n : Nat) (cap : Word) (r : Nat), 1 ≤ n → n ≤ 32 → 16 ≤ cap.toNat →
    (State.afterReset n cap r).Inv ∧ (State.afterReset n cap r).SubkeyInv ∧
    (State.afterReset n cap r).ChainsInv) ∧
  State.reset.Inv ∧ State.reset.SubkeyInv ∧ State.reset.ChainsInv

/-- Every step keeps the invariant: R63 (a), (b), (d), (e), (f), the counters of R56, the parameters of R12
and the canonical form of the message memories. -/
def Obligations.InvariantKeptByEveryStep : Prop :=
  ∀ s t : State, s.Inv → step s = .next t → t.Inv

/-- No step stops the machine: every step of every state has a next state. This is the model's deduction
(notes/assumptions/12.md, DEDUCED): R250 names three classes of event that report something not done and
gives each an effect, and no rule gives a step none. -/
def Obligations.EveryStepGoesOn : Prop :=
  ∀ s : State, ∃ t, step s = .next t

/-- R311: when the core is quiescent no sequencer or provider step is enabled, and without input it stays
as it is; when it is not, one is enabled (R171, R203, R102). -/
def Obligations.QuiescentIffNothingEnabled : Prop :=
  ∀ s : State, s.Inv →
    (s.quiescent →
      (∀ x, sequencerStep? x s = none ∧ providerStep? x s = none) ∧
      (s.input = [] → step s = .next s)) ∧
    (¬ s.quiescent → enabledEvents s ≠ [])

/-- R105, R211, R310: left alone, with a provider that answers, the core becomes quiescent after at
most as many steps as its work counts: three for every Block still to come and one to three for a
derivation. That some enabled step is always taken is the model's form of the fairness assumption
(notes/assumptions/3.md). -/
def Obligations.WorkEndsInBoundedSteps : Prop :=
  ∀ s : State, s.Inv → s.input = [] →
    ∃ k t, k ≤ s.work ∧ Sys2Proof.core.run k s = .next t ∧ t.quiescent

/-- R306: what the host can see, but for the words of a tag, does not depend on the key, the subkeys,
the messages, the padded Blocks or the ciphertext: two states that differ in these alone (and in the
key and message bytes the host has still to write) step to two states that again differ in these
alone, and a host that does not read a tag is told the same. -/
def Obligations.SecretsDoNotShow : Prop :=
  ∀ s t : State, s.publicView = t.publicView →
    ∃ s' t', step s = .next s' ∧ step t = .next t' ∧ s'.publicView = t'.publicView ∧
      (s.reply = t.reply → readsTag s = false → s'.reply = t'.reply)

/-- R137: the script line `LOADKEY h` of at most 32 key bytes, from a state that is `UNPREPARED`, leaves
`KEY` holding the bytes followed by zeros after its eight steps, and changes nothing else. -/
def Obligations.LoadKeyScript : Prop :=
  ∀ (s : State) (h : List Byte) (rest : List Event), s.pstate = .unprepared → h.length ≤ 32 →
    s.input = lineLoadKey h ++ rest →
    ∃ key : Vector Byte 32,
      Sys2Proof.core.run 8 s =
        .next { s with key := key, input := rest, reply := some (.write .ok) } ∧
      ∀ i, i < 32 → key[i]? = some (h.getD i 0x00#8)
end

