-- ==== Sys2Proof/Laws/Operands.lean ====
section
/-!
SUPPORT. The laws of the operands: the length analyser (spec/42_padding.md R182), the key bytes
(spec/10_state.md R31) and the message bytes (spec/20_memory.md R86 to R88).
-/

namespace Sys2Proof.Machine

theorem nblk_pos (len : Nat) : 0 < nblk len := by unfold nblk; split_ifs <;> omega

theorem nblk_le {len : Nat} (h : len < 2 ^ 32) : nblk len ≤ 2 ^ 28 := by
  unfold nblk; split_ifs <;> omega

/-- The number of Blocks of a 32-bit length fits its register. -/
theorem nblk_toNat (len : Word) : (BitVec.ofNat 32 (nblk len.toNat)).toNat = nblk len.toNat := by
  have := nblk_le len.isLt
  rw [BitVec.toNat_ofNat]
  omega

/-- The message bytes before the last Block and those in it are all of them. -/
theorem lastBytes_add (len : Nat) : 16 * (nblk len - 1) + lastBytes len = len := by
  unfold lastBytes nblk; split_ifs <;> omega

theorem lastBytes_le (len : Nat) : lastBytes len ≤ 16 := by
  unfold lastBytes nblk; split_ifs <;> omega

theorem complete_iff (len : Nat) : complete len = true ↔ 0 < len ∧ len % 16 = 0 := by
  simp [complete]

/-- The alignment check never fails (R258): `padlen` is 16 times a number. -/
theorem padlen_aligned (len : Nat) : padlen len % 16 = 0 := by simp [padlen]

theorem legalKeyLength_iff (n : Nat) : legalKeyLength n = true ↔ n = 16 ∨ n = 24 ∨ n = 32 := by
  simp [legalKeyLength, or_assoc]

/-- Key byte i after a write of `KEYk` (R31). -/
theorem writeKeyWord_getElem? (key : Vector Byte 32) (k : Nat) (v : Word) {i : Nat} (hi : i < 32) :
    (writeKeyWord key k v)[i]? =
      if i / 4 = k then some (wordByte v (i % 4)) else key[i]? := by
  have hget (j : Nat) (w : Byte) (u : Vector Byte 32) :
      (u.setIfInBounds j w)[i]? = if j = i then some w else u[i]? := by
    rw [Vector.getElem?_setIfInBounds]
    split_ifs <;> first | rfl | omega
  simp only [writeKeyWord, hget]
  by_cases hk : i / 4 = k
  · obtain ⟨r, hr, rfl⟩ : ∃ r, r < 4 ∧ i = 4 * k + r := ⟨i % 4, by omega, by omega⟩
    rw [if_pos hk, show (4 * k + r) % 4 = r by omega]
    interval_cases r <;> simp
  · rw [if_neg hk, if_neg (by omega), if_neg (by omega), if_neg (by omega), if_neg (by omega)]

/-- A message byte the host has written. -/
theorem messageByte_of_read {r c a : Nat} {x : Context} {v : Byte} (h : x.mem.read a = some v) :
    messageByte r c x a = v := by simp [messageByte, h]

/-- A message byte the host has not written is unspecified (R88). -/
theorem messageByte_of_unwritten {r c a : Nat} {x : Context} (h : x.mem.read a = none) :
    messageByte r c x a = Config.unwrittenByte r c a := by simp [messageByte, h]

@[simp] theorem memRead_length (r c : Nat) (x : Context) (a n : Nat) :
    (memRead r c x a n).length = n := by simp [memRead]

@[simp] theorem message_length (r c : Nat) (x : Context) :
    (message r c x).length = x.msglen.toNat := by simp [message]

end Sys2Proof.Machine
end

