-- ==== Sys2Proof/Laws/State.lean ====
section
/-!
SUPPORT. What each named operation leaves unchanged and what it writes, field by field, so that no
proof unfolds a record update.
-/

namespace Sys2Proof.Machine

/-! ### State.updateCtx -/

@[simp] theorem updateCtx_msgcap (s : State) (c : Nat) (f : Context → Context) :
    (s.updateCtx c f).msgcap = s.msgcap := rfl

@[simp] theorem updateCtx_pstate (s : State) (c : Nat) (f : Context → Context) :
    (s.updateCtx c f).pstate = s.pstate := rfl

@[simp] theorem updateCtx_key (s : State) (c : Nat) (f : Context → Context) :
    (s.updateCtx c f).key = s.key := rfl

@[simp] theorem updateCtx_keylen (s : State) (c : Nat) (f : Context → Context) :
    (s.updateCtx c f).keylen = s.keylen := rfl

@[simp] theorem updateCtx_k1 (s : State) (c : Nat) (f : Context → Context) :
    (s.updateCtx c f).k1 = s.k1 := rfl

@[simp] theorem updateCtx_k2 (s : State) (c : Nat) (f : Context → Context) :
    (s.updateCtx c f).k2 = s.k2 := rfl

@[simp] theorem updateCtx_perr (s : State) (c : Nat) (f : Context → Context) :
    (s.updateCtx c f).perr = s.perr := rfl

@[simp] theorem updateCtx_rej (s : State) (c : Nat) (f : Context → Context) :
    (s.updateCtx c f).rej = s.rej := rfl

@[simp] theorem updateCtx_dsent (s : State) (c : Nat) (f : Context → Context) :
    (s.updateCtx c f).dsent = s.dsent := rfl

@[simp] theorem updateCtx_drv (s : State) (c : Nat) (f : Context → Context) :
    (s.updateCtx c f).drv = s.drv := rfl

@[simp] theorem updateCtx_input (s : State) (c : Nat) (f : Context → Context) :
    (s.updateCtx c f).input = s.input := rfl

@[simp] theorem updateCtx_reply (s : State) (c : Nat) (f : Context → Context) :
    (s.updateCtx c f).reply = s.reply := rfl

@[simp] theorem updateCtx_resets (s : State) (c : Nat) (f : Context → Context) :
    (s.updateCtx c f).resets = s.resets := rfl

@[simp] theorem updateCtx_draws (s : State) (c : Nat) (f : Context → Context) :
    (s.updateCtx c f).draws = s.draws := rfl

@[simp] theorem updateCtx_picks (s : State) (c : Nat) (f : Context → Context) :
    (s.updateCtx c f).picks = s.picks := rfl

/-! ### reject -/

@[simp] theorem reject_msgcap (r : Rejection) (s : State) :
    (reject r s).msgcap = s.msgcap := rfl

@[simp] theorem reject_pstate (r : Rejection) (s : State) :
    (reject r s).pstate = s.pstate := rfl

@[simp] theorem reject_key (r : Rejection) (s : State) :
    (reject r s).key = s.key := rfl

@[simp] theorem reject_keylen (r : Rejection) (s : State) :
    (reject r s).keylen = s.keylen := rfl

@[simp] theorem reject_k1 (r : Rejection) (s : State) :
    (reject r s).k1 = s.k1 := rfl

@[simp] theorem reject_k2 (r : Rejection) (s : State) :
    (reject r s).k2 = s.k2 := rfl

@[simp] theorem reject_perr (r : Rejection) (s : State) :
    (reject r s).perr = s.perr := rfl

@[simp] theorem reject_dsent (r : Rejection) (s : State) :
    (reject r s).dsent = s.dsent := rfl

@[simp] theorem reject_drv (r : Rejection) (s : State) :
    (reject r s).drv = s.drv := rfl

@[simp] theorem reject_ctxs (r : Rejection) (s : State) :
    (reject r s).ctxs = s.ctxs := rfl

@[simp] theorem reject_input (r : Rejection) (s : State) :
    (reject r s).input = s.input := rfl

@[simp] theorem reject_reply (r : Rejection) (s : State) :
    (reject r s).reply = s.reply := rfl

@[simp] theorem reject_resets (r : Rejection) (s : State) :
    (reject r s).resets = s.resets := rfl

@[simp] theorem reject_draws (r : Rejection) (s : State) :
    (reject r s).draws = s.draws := rfl

@[simp] theorem reject_picks (r : Rejection) (s : State) :
    (reject r s).picks = s.picks := rfl

/-! ### accept -/

@[simp] theorem accept_msgcap (s : State) :
    (accept s).msgcap = s.msgcap := rfl

@[simp] theorem accept_pstate (s : State) :
    (accept s).pstate = s.pstate := rfl

@[simp] theorem accept_key (s : State) :
    (accept s).key = s.key := rfl

@[simp] theorem accept_keylen (s : State) :
    (accept s).keylen = s.keylen := rfl

@[simp] theorem accept_k1 (s : State) :
    (accept s).k1 = s.k1 := rfl

@[simp] theorem accept_k2 (s : State) :
    (accept s).k2 = s.k2 := rfl

@[simp] theorem accept_perr (s : State) :
    (accept s).perr = s.perr := rfl

@[simp] theorem accept_dsent (s : State) :
    (accept s).dsent = s.dsent := rfl

@[simp] theorem accept_drv (s : State) :
    (accept s).drv = s.drv := rfl

@[simp] theorem accept_ctxs (s : State) :
    (accept s).ctxs = s.ctxs := rfl

@[simp] theorem accept_input (s : State) :
    (accept s).input = s.input := rfl

@[simp] theorem accept_reply (s : State) :
    (accept s).reply = s.reply := rfl

@[simp] theorem accept_resets (s : State) :
    (accept s).resets = s.resets := rfl

@[simp] theorem accept_draws (s : State) :
    (accept s).draws = s.draws := rfl

@[simp] theorem accept_picks (s : State) :
    (accept s).picks = s.picks := rfl

/-! ### setReply -/

@[simp] theorem setReply_msgcap (r : Reply) (s : State) :
    (setReply r s).msgcap = s.msgcap := rfl

@[simp] theorem setReply_pstate (r : Reply) (s : State) :
    (setReply r s).pstate = s.pstate := rfl

@[simp] theorem setReply_key (r : Reply) (s : State) :
    (setReply r s).key = s.key := rfl

@[simp] theorem setReply_keylen (r : Reply) (s : State) :
    (setReply r s).keylen = s.keylen := rfl

@[simp] theorem setReply_k1 (r : Reply) (s : State) :
    (setReply r s).k1 = s.k1 := rfl

@[simp] theorem setReply_k2 (r : Reply) (s : State) :
    (setReply r s).k2 = s.k2 := rfl

@[simp] theorem setReply_perr (r : Reply) (s : State) :
    (setReply r s).perr = s.perr := rfl

@[simp] theorem setReply_rej (r : Reply) (s : State) :
    (setReply r s).rej = s.rej := rfl

@[simp] theorem setReply_dsent (r : Reply) (s : State) :
    (setReply r s).dsent = s.dsent := rfl

@[simp] theorem setReply_drv (r : Reply) (s : State) :
    (setReply r s).drv = s.drv := rfl

@[simp] theorem setReply_ctxs (r : Reply) (s : State) :
    (setReply r s).ctxs = s.ctxs := rfl

@[simp] theorem setReply_input (r : Reply) (s : State) :
    (setReply r s).input = s.input := rfl

@[simp] theorem setReply_resets (r : Reply) (s : State) :
    (setReply r s).resets = s.resets := rfl

@[simp] theorem setReply_draws (r : Reply) (s : State) :
    (setReply r s).draws = s.draws := rfl

@[simp] theorem setReply_picks (r : Reply) (s : State) :
    (setReply r s).picks = s.picks := rfl

/-! ### setError -/

@[simp] theorem setError_msgcap (e : ErrorCode) (site : ErrorSite) (s : State) :
    (setError e site s).msgcap = s.msgcap := by cases site <;> rfl

@[simp] theorem setError_pstate (e : ErrorCode) (site : ErrorSite) (s : State) :
    (setError e site s).pstate = s.pstate := by cases site <;> rfl

@[simp] theorem setError_key (e : ErrorCode) (site : ErrorSite) (s : State) :
    (setError e site s).key = s.key := by cases site <;> rfl

@[simp] theorem setError_keylen (e : ErrorCode) (site : ErrorSite) (s : State) :
    (setError e site s).keylen = s.keylen := by cases site <;> rfl

@[simp] theorem setError_k1 (e : ErrorCode) (site : ErrorSite) (s : State) :
    (setError e site s).k1 = s.k1 := by cases site <;> rfl

@[simp] theorem setError_k2 (e : ErrorCode) (site : ErrorSite) (s : State) :
    (setError e site s).k2 = s.k2 := by cases site <;> rfl

@[simp] theorem setError_rej (e : ErrorCode) (site : ErrorSite) (s : State) :
    (setError e site s).rej = s.rej := by cases site <;> rfl

@[simp] theorem setError_dsent (e : ErrorCode) (site : ErrorSite) (s : State) :
    (setError e site s).dsent = s.dsent := by cases site <;> rfl

@[simp] theorem setError_drv (e : ErrorCode) (site : ErrorSite) (s : State) :
    (setError e site s).drv = s.drv := by cases site <;> rfl

@[simp] theorem setError_input (e : ErrorCode) (site : ErrorSite) (s : State) :
    (setError e site s).input = s.input := by cases site <;> rfl

@[simp] theorem setError_reply (e : ErrorCode) (site : ErrorSite) (s : State) :
    (setError e site s).reply = s.reply := by cases site <;> rfl

@[simp] theorem setError_resets (e : ErrorCode) (site : ErrorSite) (s : State) :
    (setError e site s).resets = s.resets := by cases site <;> rfl

@[simp] theorem setError_draws (e : ErrorCode) (site : ErrorSite) (s : State) :
    (setError e site s).draws = s.draws := by cases site <;> rfl

@[simp] theorem setError_picks (e : ErrorCode) (site : ErrorSite) (s : State) :
    (setError e site s).picks = s.picks := by cases site <;> rfl

/-! ### State.setPort -/

@[simp] theorem setPort_msgcap (s : State) (x : Session) (p : Port) :
    (s.setPort x p).msgcap = s.msgcap := by cases x <;> rfl

@[simp] theorem setPort_pstate (s : State) (x : Session) (p : Port) :
    (s.setPort x p).pstate = s.pstate := by cases x <;> rfl

@[simp] theorem setPort_key (s : State) (x : Session) (p : Port) :
    (s.setPort x p).key = s.key := by cases x <;> rfl

@[simp] theorem setPort_keylen (s : State) (x : Session) (p : Port) :
    (s.setPort x p).keylen = s.keylen := by cases x <;> rfl

@[simp] theorem setPort_k1 (s : State) (x : Session) (p : Port) :
    (s.setPort x p).k1 = s.k1 := by cases x <;> rfl

@[simp] theorem setPort_k2 (s : State) (x : Session) (p : Port) :
    (s.setPort x p).k2 = s.k2 := by cases x <;> rfl

@[simp] theorem setPort_perr (s : State) (x : Session) (p : Port) :
    (s.setPort x p).perr = s.perr := by cases x <;> rfl

@[simp] theorem setPort_rej (s : State) (x : Session) (p : Port) :
    (s.setPort x p).rej = s.rej := by cases x <;> rfl

@[simp] theorem setPort_dsent (s : State) (x : Session) (p : Port) :
    (s.setPort x p).dsent = s.dsent := by cases x <;> rfl

@[simp] theorem setPort_input (s : State) (x : Session) (p : Port) :
    (s.setPort x p).input = s.input := by cases x <;> rfl

@[simp] theorem setPort_reply (s : State) (x : Session) (p : Port) :
    (s.setPort x p).reply = s.reply := by cases x <;> rfl

@[simp] theorem setPort_resets (s : State) (x : Session) (p : Port) :
    (s.setPort x p).resets = s.resets := by cases x <;> rfl

@[simp] theorem setPort_draws (s : State) (x : Session) (p : Port) :
    (s.setPort x p).draws = s.draws := by cases x <;> rfl

@[simp] theorem setPort_picks (s : State) (x : Session) (p : Port) :
    (s.setPort x p).picks = s.picks := by cases x <;> rfl

/-! ### The fields the operations write -/

@[simp] theorem updateCtx_ctxs (s : State) (c : Nat) (f : Context → Context) :
    (s.updateCtx c f).ctxs = s.ctxs.modify c f := rfl

@[simp] theorem reject_rej (r : Rejection) (s : State) : (reject r s).rej = r := rfl

@[simp] theorem accept_rej (s : State) : (accept s).rej = .accepted := rfl

@[simp] theorem setReply_reply (r : Reply) (s : State) : (setReply r s).reply = some r := rfl

@[simp] theorem setError_prepare_perr (e : ErrorCode) (s : State) :
    (setError e .prepare s).perr = e := rfl

@[simp] theorem setError_prepare_ctxs (e : ErrorCode) (s : State) :
    (setError e .prepare s).ctxs = s.ctxs := rfl

@[simp] theorem setError_context_perr (e : ErrorCode) (c : Nat) (s : State) :
    (setError e (.context c) s).perr = s.perr := rfl

@[simp] theorem setError_context_ctxs (e : ErrorCode) (c : Nat) (s : State) :
    (setError e (.context c) s).ctxs = s.ctxs.modify c fun x => { x with cerr := e } := rfl

@[simp] theorem setPort_derivation_drv (s : State) (p : Port) :
    (s.setPort .derivation p).drv = p := rfl

@[simp] theorem setPort_derivation_ctxs (s : State) (p : Port) :
    (s.setPort .derivation p).ctxs = s.ctxs := rfl

@[simp] theorem setPort_context_drv (s : State) (c : Nat) (p : Port) :
    (s.setPort (.context c) p).drv = s.drv := rfl

@[simp] theorem setPort_context_ctxs (s : State) (c : Nat) (p : Port) :
    (s.setPort (.context c) p).ctxs = s.ctxs.modify c fun y => { y with port := p } := rfl

@[simp] theorem setSlot_infl (p : Port) (slot : Slot) : (p.setSlot slot).infl = slot := rfl

@[simp] theorem setSlot_cv (p : Port) (slot : Slot) : (p.setSlot slot).cv = p.cv := rfl

/-! ### Views that an operation does not touch -/

@[simp] theorem updateCtx_nctx (s : State) (c : Nat) (f : Context → Context) :
    (s.updateCtx c f).nctx = s.nctx := by simp [State.nctx]

@[simp] theorem setPort_nctx (s : State) (x : Session) (p : Port) :
    (s.setPort x p).nctx = s.nctx := by cases x <;> simp [State.nctx]

@[simp] theorem setError_nctx (e : ErrorCode) (site : ErrorSite) (s : State) :
    (setError e site s).nctx = s.nctx := by cases site <;> simp [State.nctx]

@[simp] theorem updateCtx_keyBytes (s : State) (c : Nat) (f : Context → Context) :
    (s.updateCtx c f).keyBytes = s.keyBytes := rfl

/-- Changing an existing context is setting it to its changed value. -/
theorem modify_eq_set {l : List Context} {c : Nat} {x : Context} (f : Context → Context)
    (h : l[c]? = some x) : l.modify c f = l.set c (f x) := by
  apply List.ext_getElem?
  intro i
  rw [List.getElem?_modify, List.getElem?_set]
  by_cases hi : c = i
  · subst hi
    obtain ⟨hl, rfl⟩ := List.getElem?_eq_some_iff.mp h
    simp [hl]
  · simp [hi]

/-- Context d after context c was changed. -/
theorem updateCtx_getElem? (s : State) (c d : Nat) (f : Context → Context) :
    (s.updateCtx c f).ctxs[d]? = if c = d then (s.ctxs[d]?).map f else s.ctxs[d]? := by
  rw [updateCtx_ctxs, List.getElem?_modify]
  by_cases h : c = d <;> simp [h]

/-- Every context after a change is an old one or the changed one. -/
theorem mem_updateCtx {s : State} {c : Nat} {f : Context → Context} {y : Context}
    (h : y ∈ (s.updateCtx c f).ctxs) :
    y ∈ s.ctxs ∨ ∃ x, s.ctxs[c]? = some x ∧ x ∈ s.ctxs ∧ y = f x := by
  obtain ⟨d, hd⟩ := List.mem_iff_getElem?.mp h
  rw [updateCtx_getElem?] at hd
  by_cases hc : c = d
  · subst hc
    rw [if_pos rfl] at hd
    obtain ⟨x, hx, rfl⟩ := Option.map_eq_some_iff.mp hd
    exact .inr ⟨x, hx, List.mem_of_getElem? hx, rfl⟩
  · rw [if_neg hc] at hd
    exact .inl (List.mem_of_getElem? hd)

end Sys2Proof.Machine
end

