-- ==== Sys2Proof/Laws/Effects.lean ====
section
/-!
SUPPORT. Everything a step can do, said once: `Effect s t` lists the state changes of the spec's steps,
each with the conditions it happens under, and `perform_effect` and `step_effect` say that a step is
one of them. Proofs about all steps go by cases on it and unfold no step function.
-/

namespace Sys2Proof.Machine

/-- The state changes of one event. -/
inductive Effect (s : State) : State → Prop where
  /-- A sequencer or provider event whose step is not enabled. -/
  | nothing : Effect s s
  /-- A read, a refused access, or a write to a read-only register (R79, R78, R43). -/
  | replied (r : Reply) : Effect s (setReply r s)
  /-- A rejected command (R236). -/
  | rejected (r : Rejection) : Effect s (setReply (.write .ok) (reject r s))
  /-- R222. -/
  | prepareIllegal (hs : s.pstate = .unprepared) :
      Effect s (setReply (.write .ok) (prepareIllegal s))
  /-- R223. -/
  | prepareStart (n : Nat) (hs : s.pstate = .unprepared) (hn : legalKeyLength n = true) :
      Effect s (setReply (.write .ok) (prepareStart n s))
  /-- R230. -/
  | macStart (c : Nat) (x : Context) (hs : s.pstate = .prepared) (hx : s.ctxs[c]? = some x)
      (idle : x.busy = false) (hlen : x.msglen ≤ s.msgcap) :
      Effect s (setReply (.write .ok) (macStart c s))
  /-- R31. -/
  | keyWrite (k : Nat) (v : Word) (hs : s.pstate = .unprepared) :
      Effect s (setReply (.write .ok) { s with key := writeKeyWord s.key k v })
  /-- R52. -/
  | msglenWrite (c : Nat) (x : Context) (v : Word) (hx : s.ctxs[c]? = some x) (idle : x.busy = false) :
      Effect s (setReply (.write .ok) (s.updateCtx c fun x => { x with msglen := v }))
  /-- R53. -/
  | msgptrWrite (c : Nat) (x : Context) (v : Word) (hx : s.ctxs[c]? = some x) (idle : x.busy = false) :
      Effect s (setReply (.write .ok) (s.updateCtx c fun x => { x with msgptr := v }))
  /-- R82. -/
  | data8 (c : Nat) (x : Context) (v : Word) (hx : s.ctxs[c]? = some x) (idle : x.busy = false) :
      Effect s (setReply (.write .ok) (writeData8 c v s))
  /-- R83. -/
  | data32 (c : Nat) (x : Context) (v : Word) (hx : s.ctxs[c]? = some x) (idle : x.busy = false) :
      Effect s (setReply (.write .ok) (writeData32 c v s))
  /-- R171. -/
  | deriveSend (hs : s.pstate = .preparing) (hd : s.dsent = false) (hi : s.drv.infl = .empty) :
      Effect s (deriveSend s)
  /-- R174. -/
  | deriveReceive (b : Block) (hs : s.pstate = .preparing) (hd : s.dsent = true)
      (hi : s.drv.infl = .response false b) : Effect s (deriveReceive b s)
  /-- R175. -/
  | deriveFail (b : Block) (hs : s.pstate = .preparing) (hd : s.dsent = true)
      (hi : s.drv.infl = .response true b) : Effect s (deriveFail s)
  /-- R203. -/
  | tagSend (c : Nat) (x : Context) (hx : s.ctxs[c]? = some x) (hb : x.busy = true)
      (hi : x.port.infl = .empty) (he : x.sent = x.rcvd) (hn : x.sent < x.nblk) :
      Effect s (tagSend s c x)
  /-- R204. -/
  | tagReceive (c : Nat) (x : Context) (b : Block) (hx : s.ctxs[c]? = some x) (hb : x.busy = true)
      (hi : x.port.infl = .response false b) (hn : x.rcvd.toNat + 1 < x.nblk.toNat) :
      Effect s (tagReceive s c b)
  /-- R205. -/
  | tagReceiveLast (c : Nat) (x : Context) (b : Block) (hx : s.ctxs[c]? = some x)
      (hb : x.busy = true) (hi : x.port.infl = .response false b)
      (hn : x.rcvd.toNat + 1 = x.nblk.toNat) : Effect s (tagReceiveLast s c b)
  /-- R206. -/
  | tagFail (c : Nat) (x : Context) (b : Block) (hx : s.ctxs[c]? = some x) (hb : x.busy = true)
      (hi : x.port.infl = .response true b) : Effect s (tagFail s c)
  /-- R102, on the derivation session. -/
  | providerDerivation (q : Request) (hi : s.drv.infl = .request q) :
      Effect s
        { s.setPort .derivation (providerAnswer s.draws s.drv q) with draws := s.draws + 1 }
  /-- R102, on a context's session. -/
  | providerContext (c : Nat) (x : Context) (q : Request) (hx : s.ctxs[c]? = some x)
      (hi : x.port.infl = .request q) :
      Effect s
        { s.setPort (.context c) (providerAnswer s.draws x.port q) with draws := s.draws + 1 }
  /-- R290. -/
  | reset : Effect s (resetStep s)

/-! ### Commands -/

/-- What `exec` can answer: a rejection, or one of the three ways a command is accepted. The alignment
check never fails (R258). -/
theorem exec_cases (i : Instr) (s : State) :
    (∃ r, exec i s = .next (reject r s)) ∨
    (∃ n, i = .prepare n ∧ s.pstate = .unprepared ∧ legalKeyLength n = false ∧
      exec i s = .next (prepareIllegal s)) ∨
    (∃ n, i = .prepare n ∧ s.pstate = .unprepared ∧ legalKeyLength n = true ∧
      exec i s = .next (prepareStart n s)) ∨
    (∃ c x, i = .mac c ∧ s.pstate = .prepared ∧ s.ctxs[c]? = some x ∧ x.busy = false ∧
      x.msglen ≤ s.msgcap ∧ exec i s = .next (macStart c s)) := by
  cases i with
  | prepare n =>
    simp only [exec, execPrepare]
    split_ifs with h1 h2 h3
    · exact .inl ⟨_, rfl⟩
    · exact .inl ⟨_, rfl⟩
    · exact .inr (.inr (.inl ⟨n, rfl, not_not.mp h2, h3, rfl⟩))
    · exact .inr (.inl ⟨n, rfl, not_not.mp h2, by simpa using h3, rfl⟩)
  | mac c =>
    have hal (len : Nat) : aligned len = true := by simp [aligned, padlen_aligned]
    simp only [exec, execMac, hal, if_true]
    split_ifs with h1 h2
    · exact .inl ⟨_, rfl⟩
    · exact .inl ⟨_, rfl⟩
    · cases hx : s.ctxs[c]? with
      | none => exact .inl ⟨_, rfl⟩
      | some x =>
        dsimp only
        split_ifs with h3 h4
        · exact .inl ⟨_, rfl⟩
        · exact .inl ⟨_, rfl⟩
        · exact .inr (.inr (.inr ⟨c, x, rfl, not_not.mp h2, hx, by simpa using h3,
            BitVec.not_lt.mp h4, rfl⟩))

/-- A command always has a next state. -/
theorem exec_next (i : Instr) (s : State) : ∃ t, exec i s = .next t := by
  rcases exec_cases i s with ⟨_, h⟩ | ⟨_, _, _, _, h⟩ | ⟨_, _, _, _, h⟩ | ⟨_, _, _, _, _, _, _, h⟩ <;>
    exact ⟨_, h⟩

/-! ### Host accesses -/

theorem bankRegAt_context {c off d : Nat} {r : HostReg} (h : bankRegAt c off = some r)
    (hr : r = .cstat d ∨ r = .msglen d ∨ r = .msgptr d ∨ r = .msgdata8 d ∨ r = .msgdata32 d ∨
      ∃ k, r = .tag d k) : d = c := by
  unfold bankRegAt at h
  split_ifs at h <;> cases h <;> simp_all

/-- A context register is reached only in a context that exists (R72). -/
theorem regAt_context_lt {n a d : Nat} {r : HostReg} (h : regAt n a = some r)
    (hr : r = .cstat d ∨ r = .msglen d ∨ r = .msgptr d ∨ r = .msgdata8 d ∨ r = .msgdata32 d ∨
      ∃ k, r = .tag d k) : d < n := by
  by_cases hb : 0x100 ≤ a ∧ (a - 0x100) / 0x40 < n
  · have : regAt n a = bankRegAt ((a - 0x100) / 0x40) ((a - 0x100) % 0x40) := by
      unfold regAt
      rw [if_neg (by omega), if_neg (by omega), if_neg (by omega), if_neg (by omega),
        if_neg (by omega), if_neg (by omega), if_neg (by omega), if_pos hb]
    rw [bankRegAt_context (this ▸ h) hr]
    exact hb.2
  · exfalso
    unfold regAt at h
    rw [if_neg hb] at h
    rcases hr with rfl | rfl | rfl | rfl | rfl | ⟨k, rfl⟩ <;> (repeat' split at h) <;> cases h

theorem addressed_regAt {a : HostAccess} {s : State} {r : HostReg} (h : addressed a s = some r) :
    a.width = .w32 ∧ a.addr.toNat % 4 = 0 ∧ regAt s.nctx a.addr.toNat = some r := by
  unfold addressed at h
  split_ifs at h with h1 h2
  exact ⟨h1, h2, h⟩

/-- The context of an unlocked context register exists and is idle (R77). -/
theorem unlocked_context {a : HostAccess} {s : State} {r : HostReg} {c : Nat}
    (h : addressed a s = some r)
    (hr : r = .msglen c ∨ r = .msgptr c ∨ r = .msgdata8 c ∨ r = .msgdata32 c)
    (hl : writeLocked r s = false) : ∃ x, s.ctxs[c]? = some x ∧ x.busy = false := by
  have hc : c < s.ctxs.length := regAt_context_lt (addressed_regAt h).2.2 (d := c) (by
    rcases hr with h | h | h | h <;> simp [h])
  refine ⟨s.ctxs[c], List.getElem?_eq_getElem hc, ?_⟩
  have : s.busy c = false := by rcases hr with rfl | rfl | rfl | rfl <;> exact hl
  simpa [State.busy, List.getElem?_eq_getElem hc] using this

/-- One host access has a next state, and its effect is one of the list. -/
theorem hostAccess_effect (a : HostAccess) (s : State) :
    ∃ t, hostAccess a s = .next t ∧ Effect s t := by
  unfold hostAccess
  cases hr : addressed a s with
  | none => cases a.op <;> exact ⟨_, rfl, .replied _⟩
  | some r =>
    cases hop : a.op with
    | read => exact ⟨_, rfl, .replied _⟩
    | write v =>
      dsimp only
      split_ifs with hl
      · exact ⟨_, rfl, .replied _⟩
      · replace hl : writeLocked r s = false := by simpa using hl
        cases r with
        | cmd =>
          simp only [writeReg, command]
          cases decode v with
          | error e => exact ⟨_, rfl, .rejected _⟩
          | ok i =>
            dsimp only
            rcases exec_cases i s with ⟨r, h⟩ | ⟨n, rfl, hs, -, h⟩ | ⟨n, rfl, hs, hn, h⟩ |
              ⟨c, x, rfl, hs, hx, hb, hm, h⟩ <;> rw [h]
            · exact ⟨_, rfl, .rejected r⟩
            · exact ⟨_, rfl, .prepareIllegal hs⟩
            · exact ⟨_, rfl, .prepareStart n hs hn⟩
            · exact ⟨_, rfl, .macStart c x hs hx hb hm⟩
        | key k => exact ⟨_, rfl, .keyWrite k v (by simpa [writeLocked] using hl)⟩
        | msglen c =>
          obtain ⟨x, hx, hb⟩ := unlocked_context hr (.inl rfl) hl
          exact ⟨_, rfl, .msglenWrite c x v hx hb⟩
        | msgptr c =>
          obtain ⟨x, hx, hb⟩ := unlocked_context hr (.inr (.inl rfl)) hl
          exact ⟨_, rfl, .msgptrWrite c x v hx hb⟩
        | msgdata8 c =>
          obtain ⟨x, hx, hb⟩ := unlocked_context hr (.inr (.inr (.inl rfl))) hl
          exact ⟨_, rfl, .data8 c x v hx hb⟩
        | msgdata32 c =>
          obtain ⟨x, hx, hb⟩ := unlocked_context hr (.inr (.inr (.inr rfl))) hl
          exact ⟨_, rfl, .data32 c x v hx hb⟩
        | id => exact ⟨_, rfl, .replied _⟩
        | cfgNctx => exact ⟨_, rfl, .replied _⟩
        | cfgMsgcap => exact ⟨_, rfl, .replied _⟩
        | rej => exact ⟨_, rfl, .replied _⟩
        | pstat => exact ⟨_, rfl, .replied _⟩
        | cstat c => exact ⟨_, rfl, .replied _⟩
        | tag c k => exact ⟨_, rfl, .replied _⟩

/-! ### Sequencer, provider -/

theorem deriveStep?_effect {s t : State} (h : deriveStep? s = some t) : Effect s t := by
  unfold deriveStep? at h
  split_ifs at h with hs
  split at h <;> cases h
  · exact .deriveSend hs ‹_› ‹_›
  · exact .deriveReceive _ hs ‹_› ‹_›
  · exact .deriveFail _ hs ‹_› ‹_›

theorem tagStep?_effect {c : Nat} {s t : State} (h : tagStep? c s = some t) : Effect s t := by
  unfold tagStep? at h
  cases hx : s.ctxs[c]? with
  | none => simp [hx] at h
  | some x =>
    simp only [hx] at h
    cases hb : x.busy
    · simp [hb] at h
    rw [hb, if_pos rfl] at h
    split at h
    · split_ifs at h with hn
      cases h
      exact .tagSend c x hx hb ‹_› hn.1 hn.2
    · cases h
    · cases h
      exact .tagFail c x _ hx hb ‹_›
    · split_ifs at h with h1 h2 <;> cases h
      · exact .tagReceive c x _ hx hb ‹_› h1
      · exact .tagReceiveLast c x _ hx hb ‹_› h2

theorem sequencerStep?_effect {x : Session} {s t : State} (h : sequencerStep? x s = some t) :
    Effect s t := by
  cases x with
  | derivation => exact deriveStep?_effect h
  | context c => exact tagStep?_effect h

theorem providerStep?_effect {x : Session} {s t : State} (h : providerStep? x s = some t) :
    Effect s t := by
  unfold providerStep? at h
  cases x with
  | derivation =>
    simp only [State.port?] at h
    split at h <;> cases h
    exact .providerDerivation _ ‹_›
  | context c =>
    cases hx : s.ctxs[c]? with
    | none => simp [State.port?, hx] at h
    | some y =>
      simp only [State.port?, hx, Option.map_some] at h
      split at h <;> cases h
      exact .providerContext c y _ hx ‹_›

/-! ### Events and steps -/

/-- Every event has a next state, and its effect is one of the list. -/
theorem perform_effect (e : Event) (s : State) : ∃ t, perform e s = .next t ∧ Effect s t := by
  cases e with
  | host a => exact hostAccess_effect a s
  | sequencer x =>
    refine ⟨_, rfl, ?_⟩
    cases h : sequencerStep? x s with
    | none => exact .nothing
    | some t => exact sequencerStep?_effect h
  | provider x =>
    refine ⟨_, rfl, ?_⟩
    cases h : providerStep? x s with
    | none => exact .nothing
    | some t => exact providerStep?_effect h
  | reset => exact ⟨_, rfl, .reset⟩

/-! ### Only reset counts a reset -/

theorem command_resets {v : Word} {s t : State} (h : command v s = .next t) : t.resets = s.resets := by
  unfold command at h
  cases hd : decode v with
  | error _ => rw [hd] at h; cases h; rfl
  | ok i =>
    simp only [hd] at h
    rcases exec_cases i s with ⟨_, hx⟩ | ⟨_, _, _, _, hx⟩ | ⟨_, _, _, _, hx⟩ | ⟨_, _, _, _, _, _, _, hx⟩ <;>
      rw [hx] at h <;> cases h <;> rfl

theorem hostAccess_resets {a : HostAccess} {s t : State} (h : hostAccess a s = .next t) :
    t.resets = s.resets := by
  unfold hostAccess at h
  cases hr : addressed a s <;> cases hop : a.op <;> rw [hr, hop] at h <;> dsimp only at h
  · cases h; rfl
  · cases h; rfl
  · cases h; rfl
  · rename_i r v
    split_ifs at h with hl
    · cases h; rfl
    · cases r <;> simp only [writeReg, onNext] at h <;> first | (cases h; rfl) | skip
      obtain ⟨u, hc⟩ : ∃ u, command v s = .next u := by
        unfold command; cases decode v; exacts [⟨_, rfl⟩, exec_next _ s]
      rw [hc] at h
      cases h
      exact (command_resets hc :)

theorem sequencerStep?_resets {x : Session} {s t : State} (h : sequencerStep? x s = some t) :
    t.resets = s.resets := by
  cases x with
  | derivation =>
    simp only [sequencerStep?, deriveStep?] at h
    repeat' split at h
    all_goals first | rfl | (cases h; first | rfl | done)
  | context c =>
    simp only [sequencerStep?, tagStep?] at h
    repeat' split at h
    all_goals first | rfl | (cases h; first | rfl | done)

theorem providerStep?_resets {x : Session} {s t : State} (h : providerStep? x s = some t) :
    t.resets = s.resets := by
  unfold providerStep? at h
  repeat' split at h
  all_goals first | (cases h; first | exact setPort_resets .. | done)

/-- Of all events only a reset changes how many resets there have been: so the case `Effect.reset` is
out for every other event. -/
theorem perform_resets {e : Event} {s t : State} (h : perform e s = .next t) (he : e ≠ .reset) :
    t.resets = s.resets := by
  cases e with
  | host a => exact hostAccess_resets h
  | sequencer x =>
    cases hx : sequencerStep? x s <;> rw [perform, hx] at h <;> cases h
    · rfl
    · exact sequencerStep?_resets hx
  | provider x =>
    cases hx : providerStep? x s <;> rw [perform, hx] at h <;> cases h
    · rfl
    · exact providerStep?_resets hx
  | reset => exact absurd rfl he

/-! ### The next event -/

/-- Nothing but the schedule of a state is touched before the event happens. -/
theorem nextEvent_state {s t : State} {e : Event} (h : nextEvent s = some (e, t)) :
    t = { s with input := t.input, picks := t.picks } := by
  unfold nextEvent at h
  split at h
  · cases h; rfl
  · split at h <;> cases h <;> rfl

/-- The next event is the head of the input, or, without input, one of the enabled ones. -/
theorem nextEvent_event {s t : State} {e : Event} (h : nextEvent s = some (e, t)) :
    (∃ rest, s.input = e :: rest ∧ t = { s with input := rest }) ∨
      (s.input = [] ∧ e ∈ enabledEvents s ∧ t.input = []) := by
  unfold nextEvent at h
  split at h
  · rename_i e' rest heq
    cases h
    exact .inl ⟨rest, heq, rfl⟩
  · rename_i hin
    refine .inr ⟨hin, ?_⟩
    split at h
    · cases h
    · rename_i e' heq
      cases h
      simp [heq, hin]
    · rename_i e' es _ heq
      cases h
      refine ⟨?_, hin⟩
      rw [heq, List.getD_eq_getElem?_getD]
      have hlt : Config.pick s.picks % (e' :: es).length < (e' :: es).length :=
        Nat.mod_lt _ (by simp)
      rw [List.getElem?_eq_getElem hlt]
      exact List.getElem_mem hlt

/-- Everything a step can do: the machine is quiescent without input and stays as it is, or one event
happens in the state with its schedule advanced. -/
theorem step_effect (s : State) :
    ∃ t, step s = .next t ∧
      ((s.input = [] ∧ enabledEvents s = [] ∧ t = s) ∨
        ∃ e u, nextEvent s = some (e, u) ∧ perform e u = .next t ∧ Effect u t) := by
  unfold step
  cases h : nextEvent s with
  | none =>
    refine ⟨s, rfl, .inl ?_⟩
    unfold nextEvent at h
    split at h
    · cases h
    · rename_i hin
      split at h
      · rename_i hnone; exact ⟨hin, hnone, rfl⟩
      · cases h
      · cases h
  | some p =>
    obtain ⟨e, u⟩ := p
    obtain ⟨t, ht, he⟩ := perform_effect e u
    exact ⟨t, ht, .inr ⟨e, u, rfl, ht, he⟩⟩

/-- The step rule for invariants: a property that does not see the schedule and that every effect keeps
is kept by every step. -/
theorem step_keeps {P : State → Prop}
    (schedule : ∀ s input picks, P s → P { s with input := input, picks := picks })
    (effect : ∀ s t, P s → Effect s t → P t) {s t : State} (hs : P s) (h : step s = .next t) : P t := by
  obtain ⟨t', ht', hcases⟩ := step_effect s
  rw [h] at ht'
  cases ht'
  rcases hcases with ⟨-, -, rfl⟩ | ⟨e, u, hu, -, he⟩
  · exact hs
  · rw [nextEvent_state hu] at he
    exact effect _ _ (schedule s _ _ hs) he

end Sys2Proof.Machine
end

