-- ==== Sys2Proof/Laws/Steps.lean ====
section
/-!
SUPPORT. Each step of a context as one change of that context (spec/44_commands.md R230,
spec/43_tag_engine.md R203 to R206), however it is built from the shared operations.
-/

namespace Sys2Proof.Machine

/-- Two changes of one context are one. -/
theorem updateCtx_updateCtx (s : State) (c : Nat) (f g : Context → Context) :
    (s.updateCtx c f).updateCtx c g = s.updateCtx c fun x => g (f x) := by
  simp only [State.updateCtx, List.modify_modify_eq]
  rfl

/-- Changing an existing context is putting its changed value in its place. -/
theorem updateCtx_eq_set {s : State} {c : Nat} {x : Context} (f : Context → Context)
    (h : s.ctxs[c]? = some x) : s.updateCtx c f = { s with ctxs := s.ctxs.set c (f x) } := by
  simp only [State.updateCtx, modify_eq_set f h]

theorem macStart_eq (c : Nat) (s : State) :
    macStart c s =
      ({ s with rej := .accepted }).updateCtx c fun x =>
        { x with
          busy := true, done := false, cerr := .noError,
          nblk := BitVec.ofNat 32 (nblk x.msglen.toNat), sent := 0#32, rcvd := 0#32,
          acc := zeroBlock } :=
  updateCtx_updateCtx _ _ _ _

theorem macMalformed_eq (c : Nat) (s : State) :
    macMalformed c s =
      ({ s with rej := .accepted, pstate := .fatal }).updateCtx c fun x =>
        { x with cerr := .malformedInput, done := true, busy := false, acc := zeroBlock } := by
  simp only [macMalformed, raise, setError, updateCtx_updateCtx]
  rfl

theorem tagReceiveLast_eq (s : State) (c : Nat) (b : Block) :
    tagReceiveLast s c b =
      s.updateCtx c fun y =>
        { y with
          port := y.port.setSlot .empty, acc := b, rcvd := y.rcvd + 1#32, busy := false,
          done := true } :=
  updateCtx_updateCtx _ _ _ _

theorem tagFail_eq (s : State) (c : Nat) :
    tagFail s c =
      s.updateCtx c fun y =>
        { y with
          cerr := .providerFailure, port := y.port.setSlot .empty, acc := zeroBlock, busy := false,
          done := true } :=
  updateCtx_updateCtx _ _ _ _

/-- The contexts after a reset (R62). -/
theorem afterReset_getElem? {n : Nat} {cap : Word} {r c : Nat} {x : Context}
    (h : (State.afterReset n cap r).ctxs[c]? = some x) :
    c < n ∧ x = Context.afterReset (Config.chainAtReset r c) := by
  simp only [State.afterReset, List.getElem?_map] at h
  by_cases hc : c < n
  · rw [List.getElem?_range hc] at h
    cases h
    exact ⟨hc, rfl⟩
  · rw [List.getElem?_eq_none (by simpa using hc)] at h
    cases h

@[simp] theorem afterReset_nctx (n : Nat) (cap : Word) (r : Nat) :
    (State.afterReset n cap r).nctx = n := by simp [State.nctx, State.afterReset]

@[simp] theorem resetStep_nctx (s : State) : (resetStep s).nctx = s.nctx :=
  afterReset_nctx s.nctx s.msgcap (s.resets + 1)

/-- A counter below another 32-bit number does not wrap (R192). -/
theorem add_one_toNat {x y : Word} (h : x.toNat < y.toNat) : (x + 1#32).toNat = x.toNat + 1 := by
  have := y.isLt
  rw [BitVec.toNat_add, show (1#32).toNat = 1 from rfl]
  omega

end Sys2Proof.Machine
end

