-- ==== Sys2Proof/Laws/Agents.lean ====
section
/-!
SUPPORT. The laws of the schedule (spec/00_scope.md R17, R18): which events are enabled, and what a
step is when it is no reset.
-/

namespace Sys2Proof.Machine

theorem enabled_of_mem {s : State} {e : Event} (h : e ∈ enabledEvents s) : enabled s e = true := by
  simp only [enabledEvents, List.mem_filter] at h
  exact h.2

/-- An enabled step of an existing session is in the list of enabled events. -/
theorem mem_enabledEvents {s : State} {x : Session}
    (hx : x = .derivation ∨ ∃ c, c < s.nctx ∧ x = .context c) :
    ((sequencerStep? x s).isSome → .sequencer x ∈ enabledEvents s) ∧
      ((providerStep? x s).isSome → .provider x ∈ enabledEvents s) := by
  have hm : x ∈ s.sessions := by
    rcases hx with rfl | ⟨c, hc, rfl⟩
    · simp [State.sessions]
    · simp [State.sessions, hc]
  simp only [enabledEvents, List.mem_filter, List.mem_flatMap]
  exact ⟨fun h => ⟨⟨x, hm, by simp⟩, h⟩, fun h => ⟨⟨x, hm, by simp⟩, h⟩⟩

/-- Everything a step does: nothing (quiescent, without input), a reset, or one effect that is none,
in the state with its schedule advanced. -/
theorem step_split {s t : State} (h : step s = .next t) :
    (s.input = [] ∧ enabledEvents s = [] ∧ t = s) ∨
    (∃ rest, s.input = .reset :: rest ∧ t = resetStep { s with input := rest }) ∨
    ∃ e u, e ≠ Event.reset ∧ u = { s with input := u.input, picks := u.picks } ∧
      perform e u = .next t ∧ Effect u t ∧ t.resets = u.resets := by
  obtain ⟨t', ht', hc⟩ := step_effect s
  rw [h] at ht'
  cases ht'
  rcases hc with hq | ⟨e, u, hu, hp, he⟩
  · exact .inl hq
  · by_cases her : e = .reset
    · subst her
      rcases nextEvent_event hu with ⟨rest, hin, hu'⟩ | ⟨-, hmem, -⟩
      · cases hp
        exact .inr (.inl ⟨rest, hin, by rw [hu']⟩)
      · exact nomatch enabled_of_mem hmem
    · exact .inr (.inr ⟨e, u, her, nextEvent_state hu, hp, he, perform_resets hp her⟩)

end Sys2Proof.Machine
end

