-- ==== Sys2Proof/Laws/Blocks.lean ====
section
/-!
SUPPORT. The laws of Blocks as bytes and of the Block Algebra (spec/00_scope.md R14, R15,
spec/40_block_algebra.md).
-/

namespace Sys2Proof.Machine

/-- Bit k of byte i is bit `120 - 8i + k` of the 128-bit value (R14). -/
theorem blockByte_getLsbD (b : Block) (i k : Nat) :
    (blockByte b i).getLsbD k = (decide (k < 8) && b.getLsbD (120 - 8 * i + k)) := by
  simp [blockByte]

/-- Bit k after the first n bytes were put together. -/
theorem foldBytes_getLsbD (f : Nat → Byte) (n k : Nat) (hk : k < 128) :
    ((List.range n).foldl (fun acc i => appendByte acc (f i)) zeroBlock).getLsbD k =
      (decide (k < 8 * n) && (f (n - 1 - k / 8)).getLsbD (k % 8)) := by
  induction n generalizing k with
  | zero => simp [zeroBlock]
  | succ n ih =>
    rw [List.range_succ, List.foldl_append, List.foldl_cons, List.foldl_nil, appendByte, BitVec.getLsbD_or,
      BitVec.getLsbD_shiftLeft, BitVec.getLsbD_setWidth]
    by_cases h : k < 8
    · simp [h, hk, Nat.mod_eq_of_lt h, Nat.div_eq_of_lt h, show k < 8 * (n + 1) by omega]
    · rw [ih (k - 8) (by omega), BitVec.getLsbD_of_ge (f n) k (by omega),
        show n - 1 - (k - 8) / 8 = n + 1 - 1 - k / 8 by omega, show (k - 8) % 8 = k % 8 by omega]
      simp only [h, hk, decide_true, decide_false, Bool.not_false, Bool.true_and, Bool.and_false, Bool.or_false]
      congr 1
      exact decide_eq_decide.mpr (by omega)

/-- Byte i of the Block made of the bytes of `f` is `f i`. -/
theorem blockByte_blockOfBytes (f : Nat → Byte) {i : Nat} (h : i < 16) :
    blockByte (blockOfBytes f) i = f i := by
  apply BitVec.eq_of_getLsbD_eq
  intro k hk
  rw [blockByte_getLsbD, blockOfBytes, foldBytes_getLsbD _ _ _ (by omega),
    show 16 - 1 - (120 - 8 * i + k) / 8 = i by omega, show (120 - 8 * i + k) % 8 = k by omega]
  simp [hk, show 120 - 8 * i + k < 128 by omega]

/-- Two Blocks with the same sixteen bytes are the same. -/
theorem block_ext {a b : Block} (h : ∀ i, i < 16 → blockByte a i = blockByte b i) : a = b := by
  apply BitVec.eq_of_getLsbD_eq
  intro k hk
  have := congrArg (fun v => v.getLsbD (k % 8)) (h (15 - k / 8) (by omega))
  simp only [blockByte_getLsbD] at this
  rw [show 120 - 8 * (15 - k / 8) + k % 8 = k by omega] at this
  simpa [Nat.mod_lt k (by decide : 0 < 8)] using this

/-- The Block made of a Block's bytes is the Block. -/
theorem blockOfBytes_blockByte (b : Block) : blockOfBytes (blockByte b) = b :=
  block_ext fun _ h => blockByte_blockOfBytes _ h

/-- The bytes of a Block are sixteen. -/
@[simp] theorem blockBytes_length (b : Block) : (blockBytes b).length = 16 := by simp [blockBytes]

@[simp] theorem blockByte_xorInto (d s : Block) (i : Nat) :
    blockByte (xorInto d s) i = blockByte d i ^^^ blockByte s i := by
  simp [blockByte, xorInto, BitVec.extractLsb'_xor]

@[simp] theorem blockByte_zeroBlock (i : Nat) : blockByte zeroBlock i = 0#8 := by
  simp [blockByte, zeroBlock]

/-- `DOUBLE` bit by bit: the shifted bit, and the dropped bit where 0x87 has a one (R152). -/
theorem double_getLsbD (b : Block) (k : Nat) :
    (double b).getLsbD k =
      ((decide (k < 128) && (decide (0 < k) && b.getLsbD (k - 1))) ^^
        (b.getLsbD 127 && (decide (k < 8) && (0x87#8).getLsbD k))) := by
  have hm (c : Bool) : ((reductionByte &&& repByte c).setWidth 128 : Block).getLsbD k
      = (c && (decide (k < 8) && (0x87#8).getLsbD k)) := by
    by_cases hk : k < 8
    · rw [BitVec.getLsbD_setWidth, BitVec.getLsbD_and]
      have : (0xFF#8).getLsbD k = true := by interval_cases k <;> rfl
      cases c <;> simp [repByte, reductionByte, hk, this, show k < 128 by omega]
    · rw [BitVec.getLsbD_setWidth, BitVec.getLsbD_of_ge _ _ (by omega)]; simp [hk]
  simp only [double, BitVec.getLsbD_xor, hm, BitVec.getLsbD_shiftLeft]
  rcases k with _ | k
  · simp
  · simp

/-- `DOUBLE` of the zero Block (R156 a). -/
@[simp] theorem double_zeroBlock : double zeroBlock = zeroBlock := by decide

end Sys2Proof.Machine
end

