-- ==== Sys2Proof/Laws/HostPort.lean ====
section
/-!
SUPPORT. The laws of the host port (spec/20_memory.md sections 2 and 3): where the registers are, when an
access is refused, and what a read and a write that is performed do. Cite these instead of unfolding
`regAt` or `hostAccess`.
-/

namespace Sys2Proof.Machine

/-- An offset inside the bank of a context that exists (R48). -/
theorem regAt_bank {n c off : Nat} (hc : c < n) (hoff : off < 0x40) :
    regAt n (0x100 + 0x40 * c + off) = bankRegAt c off := by
  have hq : (0x100 + 0x40 * c + off - 0x100) / 0x40 = c := by omega
  have hr : (0x100 + 0x40 * c + off - 0x100) % 0x40 = off := by omega
  unfold regAt
  rw [if_neg (by omega), if_neg (by omega), if_neg (by omega), if_neg (by omega),
    if_neg (by omega), if_neg (by omega), if_neg (by omega), if_pos ⟨by omega, by omega⟩, hq, hr]

/-- The offsets of the key registers (R42). -/
theorem regAt_key {n k : Nat} (hk : k < 8) : regAt n (0x020 + 4 * k) = some (.key k) := by
  unfold regAt
  rw [if_neg (by omega), if_neg (by omega), if_neg (by omega), if_neg (by omega),
    if_neg (by omega), if_neg (by omega), if_pos ⟨by omega, by omega⟩]
  congr 2
  omega

/-- An aligned 32-bit access reaches the register at its offset (R73, R74). -/
theorem addressed_eq {a : HostAccess} {s : State} (hw : a.width = .w32) (h4 : a.addr.toNat % 4 = 0) :
    addressed a s = regAt s.nctx a.addr.toNat := by simp [addressed, hw, h4]

/-- A refused access: ERR, data 0, nothing else (R20, R255). -/
theorem hostAccess_refused {a : HostAccess} {s : State} (h : addressed a s = none) :
    hostAccess a s =
      .next (setReply (match a.op with
        | .read => .read .err 0#32
        | .write _ => .write .err) s) := by
  unfold hostAccess
  rw [h]
  cases a.op <;> rfl

/-- A read that is performed (R78, R79). -/
theorem hostAccess_read {a : HostAccess} {s : State} {r : HostReg} (h : addressed a s = some r)
    (hop : a.op = .read) : hostAccess a s = .next (setReply (.read .ok (readReg r s)) s) := by
  unfold hostAccess
  rw [h, hop]

/-- A locked write: ERR, nothing else (R77). -/
theorem hostAccess_locked {a : HostAccess} {s : State} {r : HostReg} {v : Word}
    (h : addressed a s = some r) (hop : a.op = .write v) (hl : writeLocked r s = true) :
    hostAccess a s = .next (setReply (.write .err) s) := by
  unfold hostAccess
  rw [h, hop]
  exact if_pos hl

/-- A write that is performed or ignored (R78). -/
theorem hostAccess_write {a : HostAccess} {s : State} {r : HostReg} {v : Word}
    (h : addressed a s = some r) (hop : a.op = .write v) (hl : writeLocked r s = false) :
    hostAccess a s = onNext (writeReg r v s) (setReply (.write .ok)) := by
  unfold hostAccess
  rw [h, hop]
  exact if_neg (by simp [hl])

/-- A 32-bit write to an aligned offset of the register space, by its number. -/
theorem perform_write {s : State} {addr : Nat} {v : Word} {r : HostReg} (hlt : addr < 0x1000)
    (h4 : addr % 4 = 0) (hr : regAt s.nctx addr = some r) (hl : writeLocked r s = false) :
    perform (.host { width := .w32, addr := BitVec.ofNat 12 addr, op := .write v }) s =
      onNext (writeReg r v s) (setReply (.write .ok)) := by
  have hn : (BitVec.ofNat 12 addr).toNat = addr := by simp; omega
  refine hostAccess_write ?_ rfl hl
  rw [addressed_eq rfl (by rw [hn]; exact h4), hn, hr]

/-- The write of `CMD` reaches `CMD` (R42). -/
theorem addressed_cmd (v : Word) (s : State) :
    addressed { width := .w32, addr := 0x00C#12, op := .write v } s = some .cmd := by
  simp [addressed, regAt]

/-- What a step with a `CMD` write at the head of the input does (R120, R236). -/
theorem step_cmdWrite {s : State} {v : Word} {rest : List Event} (h : s.input = cmdWrite v :: rest) :
    step s = onNext (command v { s with input := rest }) (setReply (.write .ok)) := by
  simp only [step, nextEvent, h, cmdWrite, perform]
  exact hostAccess_write (addressed_cmd v _) rfl rfl

end Sys2Proof.Machine
end

