-- ==== Sys2Proof/Laws/Memory.lean ====
section
/-!
SUPPORT. The laws of the message memory (spec/20_memory.md R81 to R88): a read after a write, and that
every operation keeps the canonical form and the bound MSGCAP.
-/

namespace Sys2Proof.Machine

theorem Memory.read_write_same (m : Memory) (a : Nat) (v : Byte) : (m.write a v).read a = some v := by
  induction m with
  | nil => simp [Memory.write, Memory.read]
  | cons cell rest ih =>
    obtain ⟨b, w⟩ := cell
    simp only [Memory.write]
    split_ifs with h1 h2
    · simp [Memory.read]
    · simp [Memory.read, h2]
    · simp [Memory.read, h2, ih]

theorem Memory.read_write_other (m : Memory) {a i : Nat} (v : Byte) (h : i ≠ a) :
    (m.write a v).read i = m.read i := by
  induction m with
  | nil => simp [Memory.write, Memory.read, h]
  | cons cell rest ih =>
    obtain ⟨b, w⟩ := cell
    simp only [Memory.write]
    split_ifs with h1 h2
    · simp [Memory.read, h]
    · subst h2; simp [Memory.read, h]
    · simp [Memory.read, ih]

theorem Memory.read_write (m : Memory) (a i : Nat) (v : Byte) :
    (m.write a v).read i = if i = a then some v else m.read i := by
  by_cases h : i = a
  · subst h; simp [m.read_write_same]
  · simp [h, m.read_write_other v h]

/-- A cell of a written memory is the new cell or an old one. -/
theorem Memory.mem_write {m : Memory} {a : Nat} {v : Byte} {cell : Host.Cell}
    (h : cell ∈ m.write a v) : cell = (a, v) ∨ cell ∈ m := by
  induction m with
  | nil => simpa [Memory.write] using h
  | cons head rest ih =>
    obtain ⟨b, w⟩ := head
    simp only [Memory.write] at h
    split_ifs at h with h1 h2
    · simpa using h
    · subst h2
      rcases List.mem_cons.mp h with rfl | h
      · exact .inl rfl
      · exact .inr (List.mem_cons_of_mem _ h)
    · rcases List.mem_cons.mp h with rfl | h
      · exact .inr (List.mem_cons_self ..)
      · rcases ih h with rfl | h
        · exact .inl rfl
        · exact .inr (List.mem_cons_of_mem _ h)

theorem Memory.wf_nil : Memory.wf [] := List.Pairwise.nil

theorem Memory.wf_write {m : Memory} (a : Nat) (v : Byte) (h : m.wf) : Memory.wf (m.write a v) := by
  induction m with
  | nil => simp [Memory.write, Memory.wf]
  | cons head rest ih =>
    obtain ⟨b, w⟩ := head
    obtain ⟨hb, hrest⟩ := List.pairwise_cons.mp h
    simp only [Memory.write]
    split_ifs with h1 h2
    · refine List.pairwise_cons.mpr ⟨fun c hc => ?_, h⟩
      rcases List.mem_cons.mp hc with rfl | hc
      · exact h1
      · exact h1.trans (hb c hc)
    · subst h2; exact List.pairwise_cons.mpr ⟨hb, hrest⟩
    · refine List.pairwise_cons.mpr ⟨fun c hc => ?_, ih hrest⟩
      rcases Memory.mem_write hc with rfl | hc
      · show b < a; omega
      · exact hb c hc

/-! ### Stores of the data ports -/

theorem storeByte_read (msgcap : Word) (m : Memory) (a : Word) (v : Byte) (i : Nat) :
    (storeByte msgcap m a v).read i =
      if i = a.toNat ∧ a < msgcap then some v else m.read i := by
  unfold storeByte
  by_cases h : a < msgcap
  · simp [h, Memory.read_write]
  · simp [h]

theorem storeByte_wf {msgcap : Word} {m : Memory} (a : Word) (v : Byte) (h : m.wf) :
    Memory.wf (storeByte msgcap m a v) := by
  unfold storeByte
  split_ifs
  · exact Memory.wf_write _ _ h
  · exact h

theorem storeByte_bound {msgcap : Word} {m : Memory} (a : Word) (v : Byte)
    (h : ∀ cell ∈ m, cell.1 < msgcap.toNat) :
    ∀ cell ∈ storeByte msgcap m a v, cell.1 < msgcap.toNat := by
  intro cell hc
  unfold storeByte at hc
  split_ifs at hc with ha
  · rcases Memory.mem_write hc with rfl | hc
    · exact ha
    · exact h cell hc
  · exact h cell hc

theorem storeWord_wf {msgcap : Word} {m : Memory} (p v : Word) (h : m.wf) :
    Memory.wf (storeWord msgcap m p v) :=
  storeByte_wf _ _ (storeByte_wf _ _ (storeByte_wf _ _ (storeByte_wf _ _ h)))

theorem storeWord_bound {msgcap : Word} {m : Memory} (p v : Word)
    (h : ∀ cell ∈ m, cell.1 < msgcap.toNat) :
    ∀ cell ∈ storeWord msgcap m p v, cell.1 < msgcap.toNat :=
  storeByte_bound _ _ (storeByte_bound _ _ (storeByte_bound _ _ (storeByte_bound _ _ h)))

end Sys2Proof.Machine
end

