-- ==== Sys2Proof/Laws/PerInstr.lean ====
section
/-!
SUPPORT. Statements for every instruction, one lemma per constructor. `RowMatch`: the command word of an
instruction lies in the instruction's own row of the opcode map (spec/30_encoding.md R126), so its
reserved field is zero.
-/

namespace Sys2Proof.Laws

/-- The mask of an instruction's row (R126). -/
def rowMask : Instr → Word
  | .prepare _ => prepareMask
  | .mac _ => macMask

/-- The match value of an instruction's row (R126). -/
def rowMatch : Instr → Word
  | .prepare _ => prepareMatch
  | .mac _ => macMatch

/-- The word of `i` matches the row of `i`, whatever the operand. -/
def RowMatch.Statement (i : Instr) : Prop := encode i &&& rowMask i = rowMatch i

theorem RowMatch.prepare (keylen : Nat) : RowMatch.Statement (.prepare keylen) := by
  have h : ∀ b : BitVec 8, (0x01#8 ++ 0x0000#16 ++ b : Word) &&& prepareMask = prepareMatch := by decide
  exact h _

theorem RowMatch.mac (ctx : Nat) : RowMatch.Statement (.mac ctx) := by
  have h : ∀ b : BitVec 8, (0x02#8 ++ b ++ 0x0000#16 : Word) &&& macMask = macMatch := by decide
  exact h _

end Sys2Proof.Laws
end

