-- ==== Sys2Proof/Tests/Slice0.lean ====
section
/-!
SUPPORT. The model's own tests: ill-formed terms, words of the spec's decoding table, single steps of the
spec's vectors (spec/95_test_vectors.md, named in each comment), and for every obligation with
hypotheses a witness that meets them, at a boundary value where there is one.
-/

namespace Sys2Proof.Tests

open Sys2Proof Sys2Proof.Machine

/-! ### Well-formedness -/

/-- R123: `KEYLEN` is 0 to 255. -/
theorem test_prepare_256_is_ill_formed : (Instr.prepare 256).wellFormed = false := by decide

/-- R124: `CTX` is 0 to 255. -/
theorem test_mac_256_is_ill_formed : (Instr.mac 256).wellFormed = false := by decide

/-- R123, R124: both ends of both fields. -/
theorem test_field_ends_are_well_formed :
    (Instr.prepare 0).wellFormed = true ∧ (Instr.prepare 255).wellFormed = true ∧
      (Instr.mac 0).wellFormed = true ∧ (Instr.mac 255).wellFormed = true := by decide

/-! ### Decoding: VE1 to VE18 -/

/-- VE1, VE3, VE4, VE5, VE6. -/
theorem test_decode_prepare :
    decode 0x01000010#32 = .ok (.prepare 16) ∧ decode 0x01000020#32 = .ok (.prepare 32) ∧
      decode 0x0100000A#32 = .ok (.prepare 10) ∧ decode 0x01000000#32 = .ok (.prepare 0) ∧
      decode 0x010000FF#32 = .ok (.prepare 255) := by decide

/-- VE10, VE11, VE12. -/
theorem test_decode_mac :
    decode 0x02000000#32 = .ok (.mac 0) ∧ decode 0x02010000#32 = .ok (.mac 1) ∧
      decode 0x02FF0000#32 = .ok (.mac 255) := by decide

/-- VE7, VE8, VE9, VE13, VE14. -/
theorem test_decode_reserved_field :
    decode 0x01000110#32 = .error .reservedField ∧ decode 0x01010010#32 = .error .reservedField ∧
      decode 0x01800010#32 = .error .reservedField ∧ decode 0x02000001#32 = .error .reservedField ∧
      decode 0x02008000#32 = .error .reservedField := by decide

/-- VE15 to VE18. -/
theorem test_decode_reserved_opcode :
    decode 0x00000000#32 = .error .reservedOpcode ∧ decode 0x03000000#32 = .error .reservedOpcode ∧
      decode 0x81000010#32 = .error .reservedOpcode ∧ decode 0xFFFFFFFF#32 = .error .reservedOpcode := by
  decide

/-- VE1, VE11, the other way. -/
theorem test_encode :
    encode (.prepare 16) = 0x01000010#32 ∧ encode (.mac 1) = 0x02010000#32 := by decide

/-! ### Block algebra and padding -/

/-- VD3, VD8, VD15, VD16, VD21. -/
theorem test_double :
    double 0x80000000000000000000000000000000#128 = 0x87#128 ∧
      double 0xffffffffffffffff0000000000000000#128 = 0xfffffffffffffffe0000000000000087#128 ∧
      double 0x800000000000000000000000000000c3#128 = 0x101#128 ∧
      double 0xf0e0d0c0b0a090807060504030201000#128 = 0xe1c1a18161412100e0c0a08060402087#128 ∧
      double 0xfbeed618357133667c85e08f7236a8de#128 = 0xf7ddac306ae266ccf90bc11ee46d513b#128 := by
  decide

/-- VX1. -/
theorem test_xorInto :
    xorInto 0x00112233445566778899aabbccddeeff#128 0x0123456789abcdeffedcba9876543210#128 =
      0x01326754cdfeab9876451023ba89dcef#128 := by decide

/-- VP2: one byte 0x6b under the subkeys of VS1. -/
theorem test_padded_one_byte :
    paddedBlock 1 (fun _ => 0x6B#8) 0xfbeed618357133667c85e08f7236a8de#128
      0xf7ddac306ae266ccf90bc11ee46d513b#128 0 = 0x9c5dac306ae266ccf90bc11ee46d513b#128 := by decide

/-- VP12: 32 bytes 0xaa under the subkeys of VS4: complete, so `K1`. -/
theorem test_padded_complete :
    paddedBlock 32 (fun _ => 0xAA#8) 0x00020406080a0c0e10121416181a1c1e#128
      0x0004080c1014181c2024282c3034383c#128 1 = 0xaaa8aeaca2a0a6a4bab8bebcb2b0b6b4#128 := by decide

/-! ### Small states -/

/-- A context that has never run. -/
def idle : Context := Context.afterReset 0#128

/-- The instance of the vectors (NCTX = 2, MSGCAP = 4096) after reset, with context 0 as given. -/
def unprepared (x : Context) : State :=
  { State.afterReset 2 4096#32 0 with drv := { infl := .empty, cv := 0#128 }, ctxs := [x, idle] }

/-- The sixteen zero bytes of the key below. -/
def zeroKey : List Byte := List.replicate 16 0#8

/-- A prepared instance with an all-zero 16-byte key, with context 0 as given. -/
def prepared (x : Context) : State :=
  { unprepared x with
    pstate := .prepared, keylen := 16#8, k1 := (deriveSubkeys 16#8 zeroKey).1,
    k2 := (deriveSubkeys 16#8 zeroKey).2 }

/-- An instance whose derivation is in progress. -/
def preparing (dsent : Bool) (slot : Slot) : State :=
  { unprepared idle with
    pstate := .preparing, keylen := 16#8, dsent := dsent, drv := { infl := slot, cv := 0#128 } }

/-- A context in the first Block of its computation, with the slot as given. -/
def running (len : Word) (sent : Word) (slot : Slot) (cv : Block) : Context :=
  { idle with
    busy := true, msglen := len, nblk := BitVec.ofNat 32 (nblk len.toNat), sent := sent,
    port := { infl := slot, cv := cv } }

/-- A context whose computation succeeded. -/
def finished (acc : Block) : Context :=
  { idle with done := true, nblk := 1#32, sent := 1#32, rcvd := 1#32, acc := acc }

/-- The state after one step. -/
def afterStep (s : State) : State :=
  match step s with
  | .next t => t
  | .fault _ => s
  | .refused _ => s

/-- The state with the host's write of a word to `CMD` next. -/
def withCmd (v : Word) (s : State) : State := { s with input := [cmdWrite v] }

/-! ### Single steps -/

/-- VK1: `PREPARE 16` after reset. -/
theorem test_prepare_16 :
    (afterStep (withCmd 0x01000010#32 (unprepared idle))).rej = .accepted ∧
      readReg .pstat (afterStep (withCmd 0x01000010#32 (unprepared idle))) = 0x00001001#32 := by decide

/-- VK4: `PREPARE 10` after reset. -/
theorem test_prepare_10 :
    (afterStep (withCmd 0x0100000A#32 (unprepared idle))).rej = .accepted ∧
      readReg .pstat (afterStep (withCmd 0x0100000A#32 (unprepared idle))) = 0x00000010#32 := by decide

/-- VK18: `MAC 0` with a message of 4096 bytes. -/
theorem test_mac_4096 :
    (afterStep (withCmd 0x02000000#32 (prepared { idle with msglen := 4096#32 }))).rej = .accepted ∧
      ((afterStep (withCmd 0x02000000#32 (prepared { idle with msglen := 4096#32 }))).ctxs[0]?).map
        Context.nblk = some 256#32 := by decide

/-- VK12: `MAC 5` before `PREPARE`: the state is tested before the context. -/
theorem test_mac_before_prepare :
    (afterStep (withCmd 0x02050000#32 (unprepared idle))).rej = .badState := by decide

/-- VM7: a word written across the top of the address space. -/
theorem test_data32_wraps :
    ((afterStep { unprepared { idle with msgptr := 0xFFFFFFFE#32 } with
        input := [lineWr 0x110 0xA1A2A3A4#32] }).ctxs[0]?).map (fun x => (x.mem, x.msgptr)) =
      some ([(0, 0xA3#8), (1, 0xA4#8)], 2#32) := by decide

/-- VM2: bits [31:8] of a `MSGDATA8` write are ignored. -/
theorem test_data8 :
    ((afterStep { unprepared { idle with msgptr := 1#32 } with
        input := [lineWr 0x10C 0x12345680#32] }).ctxs[0]?).map (fun x => (x.mem, x.msgptr)) =
      some ([(1, 0x80#8)], 2#32) := by decide

/-- R31: a write of `KEY1`, and VH7: it is not readable. -/
theorem test_key_write :
    (afterStep { unprepared idle with input := [lineWr 0x024 0x28AED2A6#32] }).key[4]? = some 0x28#8 ∧
      (afterStep { unprepared idle with input := [lineRd 0x024] }).reply = some (.read .ok 0#32) := by
  decide

/-- VH12, VH14, VH18, VH23. -/
theorem test_refused :
    (afterStep { unprepared idle with input := [lineWr 0x102 1#32] }).reply = some (.write .err) ∧
      (afterStep { unprepared idle with input := [lineRd 0x018] }).reply = some (.read .err 0#32) ∧
      (afterStep { unprepared idle with input := [lineWr 0x180 0#32] }).reply = some (.write .err) ∧
      (afterStep { unprepared (running 1#32 0#32 .empty 0#128) with
        input := [lineWr 0x108 0#32] }).reply = some (.write .err) := by decide

/-- VG1 and VH1. -/
theorem test_reads :
    (afterStep { unprepared (finished 0x070a16b46b4d4144f79bdd9dd04a287c#128) with
        input := [lineRd 0x12C] }).reply = some (.read .ok 0xD04A287C#32) ∧
      (afterStep { unprepared idle with input := [lineRd 0x000] }).reply =
        some (.read .ok 0x434D4143#32) := by decide

/-- VH27 and VK12: reads of a busy context's length and pointer, and of `REJ`. -/
theorem test_reads_values :
    (afterStep { unprepared { running 17#32 0#32 .empty 0#128 with msgptr := 9#32 } with
        input := [lineRd 0x104] }).reply = some (.read .ok 17#32) ∧
      (afterStep { unprepared { running 17#32 0#32 .empty 0#128 with msgptr := 9#32 } with
        input := [lineRd 0x108] }).reply = some (.read .ok 9#32) ∧
      (afterStep { unprepared idle with rej := .badState, input := [lineRd 0x010] }).reply =
        some (.read .ok 3#32) := by decide

/-- VW8 and VW13, forced states. -/
theorem test_status_words :
    readReg .pstat { unprepared idle with pstate := .fatal, keylen := 16#8 } = 0x00001003#32 ∧
      readReg (.cstat 0) (unprepared { idle with done := true, cerr := .malformedInput }) =
        0x00000032#32 := by decide

/-- The host's probe: the word of each row, placed and run as the first step after reset. -/
theorem test_probe :
    decodeTableWord 32 0x01000000 = some (.prepare 0) ∧
      decodeTableWord 32 0x02000000 = some (.mac 0) ∧
      (afterStep (State.reset.withFetchWord 32 0x01000010)).pstate = .preparing ∧
      (afterStep (State.reset.withFetchWord 32 0x02000000)).rej = .badState := by decide

/-! ### Witnesses: the hypotheses of each obligation can be met -/

/-- DecodeEncodeRoundTrip, EncodeDecodeRoundTrip. -/
theorem test_witness_round_trips :
    (Instr.prepare 255).wellFormed = true ∧ (Instr.mac 255).wellFormed = true ∧
      decode 0x02FF0000#32 = .ok (.mac 255) ∧ decode 0x010000FF#32 = .ok (.prepare 255) := by decide

/-- ReservedWordsRejected, clause by clause. -/
theorem test_witness_reserved_words :
    (0x81000010#32).extractLsb' 24 8 ≠ 0x01#8 ∧ (0x81000010#32).extractLsb' 24 8 ≠ 0x02#8 ∧
      (0x01000110#32).extractLsb' 24 8 = 0x01#8 ∧ (0x01000110#32).extractLsb' 8 16 ≠ 0#16 ∧
      (0x02008000#32).extractLsb' 24 8 = 0x02#8 ∧ (0x02008000#32).extractLsb' 0 16 ≠ 0#16 ∧
      (0x010000FF#32).extractLsb' 24 8 = 0x01#8 ∧ (0x010000FF#32).extractLsb' 8 16 = 0#16 ∧
      (0x02FF0000#32).extractLsb' 24 8 = 0x02#8 ∧ (0x02FF0000#32).extractLsb' 0 16 = 0#16 := by decide

/-- LengthAnalyser: the empty message, a complete one and the longest. -/
theorem test_witness_lengths :
    (0 < 2 ^ 32 ∧ complete 0 = false) ∧ (16 < 2 ^ 32 ∧ 0 < 16 ∧ complete 16 = true) ∧
      (2 ^ 32 - 1 < 2 ^ 32 ∧ 0 < 2 ^ 32 - 1 ∧ complete (2 ^ 32 - 1) = false) := by decide

/-- PaddedBlocksArePad: a message of two Blocks, the last byte of the first and the first of the last. -/
theorem test_witness_padded_blocks :
    0 + 1 < nblk (running 17#32 0#32 .empty 0#128).msglen.toNat ∧ 15 < 16 ∧
      0 < lastBytes (running 17#32 0#32 .empty 0#128).msglen.toNat := by decide

/-- EmptyMessageIsOneBlock. -/
theorem test_witness_empty_message :
    (prepared idle).pstate = .prepared ∧ (prepared idle).ctxs[0]? = some idle ∧ idle.busy = false ∧
      idle.msglen = 0#32 := ⟨rfl, rfl, rfl, rfl⟩

/-- OnlyTheMessageIsRead: two messages that agree below the length and differ at it. -/
theorem test_witness_only_message :
    (∀ a, a < 1 → (fun _ : Nat => 0#8) a = (fun a : Nat => if a < 1 then 0#8 else 1#8) a) ∧
      (fun _ : Nat => 0#8) 1 ≠ (fun a : Nat => if a < 1 then 0#8 else 1#8) 1 := by
  refine ⟨fun a h => ?_, by decide⟩
  simp [h]

/-- PrepareIllegalLength at 0, 33 and 255, PrepareLegalLengthStarts at 16, 24 and 32. -/
theorem test_witness_prepare_lengths :
    (unprepared idle).pstate = .unprepared ∧
      (∀ n ∈ [0, 33, 255], n ≠ 16 ∧ n ≠ 24 ∧ n ≠ 32) ∧
      ∀ n ∈ [16, 24, 32], n = 16 ∨ n = 24 ∨ n = 32 := by decide

/-- PrepareAcceptedOnlyUnprepared: each state. -/
theorem test_witness_prepare_states :
    (unprepared idle).pstate = .unprepared ∧ (preparing false .empty).pstate = .preparing ∧
      (prepared idle).pstate = .prepared ∧
      ({ unprepared idle with pstate := .fatal } : State).pstate = .fatal := ⟨rfl, rfl, rfl, rfl⟩

/-- MacAcceptedStarts: a message as long as its memory. -/
theorem test_witness_mac_accepted :
    (prepared { idle with msglen := 4096#32 }).pstate = .prepared ∧
      (prepared { idle with msglen := 4096#32 }).ctxs[0]? = some { idle with msglen := 4096#32 } ∧
      ({ idle with msglen := 4096#32 } : Context).busy = false ∧
      (4096#32 : Word) ≤ (prepared idle).msgcap := ⟨rfl, rfl, rfl, by decide⟩

/-- MacRejectionsChangeOnlyRej: each clause; the first context that does not exist, a message one byte
too long. -/
theorem test_witness_mac_rejected :
    (preparing false .empty).pstate = .preparing ∧ (prepared idle).nctx ≤ 2 ∧
      (prepared (running 1#32 0#32 .empty 0#128)).ctxs[0]? = some (running 1#32 0#32 .empty 0#128) ∧
      (running 1#32 0#32 .empty 0#128).busy = true ∧
      (prepared { idle with msglen := 4097#32 }).ctxs[0]? = some { idle with msglen := 4097#32 } ∧
      (prepared idle).msgcap < 4097#32 := ⟨rfl, by decide, rfl, rfl, rfl, by decide⟩

/-- StepRunsDecodedCommand: a command and a reserved word. -/
theorem test_witness_command :
    (withCmd 0x02000000#32 (prepared idle)).input = cmdWrite 0x02000000#32 :: [] ∧
      decode 0x02000000#32 = .ok (.mac 0) ∧
      (withCmd 0x03000000#32 (prepared idle)).input = cmdWrite 0x03000000#32 :: [] ∧
      decode 0x03000000#32 = .error .reservedOpcode := ⟨rfl, by decide, rfl, by decide⟩

/-- CommandFrame: both commands, accepted, and a context the command does not name. -/
theorem test_witness_frame :
    (∃ t, exec (.prepare 16) (unprepared idle) = .next t ∧ t.pstate = .preparing) ∧
      (∃ t, exec (.mac 0) (prepared idle) = .next t ∧ t.rej = .accepted) ∧
      (prepared idle).ctxs[1]? = some idle := ⟨⟨_, rfl, rfl⟩, ⟨_, rfl, rfl⟩, rfl⟩

/-- FatalIsNeverEntered: a step that ends in `FATAL`. -/
theorem test_witness_fatal_step :
    ∃ t, step { unprepared idle with pstate := .fatal } = .next t ∧ t.pstate = .fatal :=
  ⟨_, rfl, rfl⟩

/-- MalformedInputIsFatal: a context that exists, and a step in `FATAL`. -/
theorem test_witness_malformed :
    (prepared idle).ctxs[0]? = some idle ∧
      ∃ t, step { withCmd 0x02000000#32 (prepared idle) with pstate := .fatal } = .next t ∧
        t.rej = .fatalState := ⟨rfl, _, rfl, rfl⟩

/-- DerivationSend. -/
theorem test_witness_derivation_send :
    (preparing false .empty).pstate = .preparing ∧ (preparing false .empty).dsent = false ∧
      (preparing false .empty).drv.infl = .empty := ⟨rfl, rfl, rfl⟩

/-- DerivationReceive: a ciphertext Block, and a failure. -/
theorem test_witness_derivation_receive :
    (preparing true (.response false 1#128)).pstate = .preparing ∧
      (preparing true (.response false 1#128)).dsent = true ∧
      (preparing true (.response false 1#128)).drv.infl = .response false 1#128 ∧
      (preparing true (.response true 1#128)).drv.infl = .response true 1#128 := ⟨rfl, rfl, rfl, rfl⟩

/-- TagSendStep: the second and last Block of a message of 17 bytes. -/
theorem test_witness_tag_send :
    let x : Context := { running 17#32 1#32 .empty 0#128 with rcvd := 1#32 }
    (prepared x).ctxs[0]? = some x ∧ x.busy = true ∧ x.port.infl = .empty ∧ x.sent = x.rcvd ∧
      x.sent < x.nblk := ⟨rfl, rfl, rfl, rfl, by decide⟩

/-- TagReceiveStep: the first Block of a message of 17 bytes. -/
theorem test_witness_tag_receive :
    let x := running 17#32 1#32 (.response false 5#128) 5#128
    (prepared x).ctxs[0]? = some x ∧ x.busy = true ∧ x.port.infl = .response false 5#128 ∧
      x.rcvd.toNat + 1 < x.nblk.toNat := ⟨rfl, rfl, rfl, by decide⟩

/-- TagReceiveLastStep: the one Block of an empty message. -/
theorem test_witness_tag_receive_last :
    let x := running 0#32 1#32 (.response false 5#128) 5#128
    (prepared x).ctxs[0]? = some x ∧ x.busy = true ∧ x.port.infl = .response false 5#128 ∧
      x.rcvd.toNat + 1 = x.nblk.toNat ∧ x.cerr = .noError := ⟨rfl, rfl, rfl, by decide, rfl⟩

/-- TagFailureStep. -/
theorem test_witness_tag_failure :
    let x := running 17#32 1#32 (.response true 5#128) 0#128
    (prepared x).ctxs[0]? = some x ∧ x.busy = true ∧ x.port.infl = .response true 5#128 :=
  ⟨rfl, rfl, rfl⟩

/-- ProviderAnswers: a beat of each kind of session. -/
theorem test_witness_provider :
    let q : Request := { first := true, last := true, keylen := 16#8, key := zeroKey, block := 0#128 }
    let x := running 0#32 1#32 (.request q) 0#128
    (preparing true (.request q)).drv.infl = .request q ∧ (prepared x).ctxs[0]? = some x ∧
      x.port.infl = .request q := ⟨rfl, rfl, rfl⟩

/-- ContextStepsArePrivate: a send step and an answer. -/
theorem test_witness_private :
    let q : Request := { first := true, last := true, keylen := 16#8, key := zeroKey, block := 0#128 }
    (∃ t, perform (.sequencer (.context 0)) (prepared (running 0#32 0#32 .empty 0#128)) = .next t ∧
      (t.ctxs[0]?).map Context.sent = some 1#32) ∧
    (∃ t, perform (.provider (.context 0)) (prepared (running 0#32 1#32 (.request q) 0#128)) = .next t ∧
      t.draws = 1) ∧ (1 : Nat) ≠ 0 := ⟨⟨_, rfl, rfl⟩, ⟨_, rfl, rfl⟩, by decide⟩

/-- SequencerStepsCommute: two sessions with an enabled step each. -/
theorem test_witness_commute :
    let s : State := { prepared (running 0#32 0#32 .empty 0#128) with
      ctxs := [running 0#32 0#32 .empty 0#128, running 0#32 0#32 .empty 0#128] }
    (0 : Nat) ≠ 1 ∧ (sequencerStep? (.context 0) s).isSome = true ∧
      (sequencerStep? (.context 1) s).isSome = true := ⟨by decide, rfl, rfl⟩

/-- ReadsHaveNoEffect: the last register of a busy context, and each way a read is refused. -/
theorem test_witness_reads :
    let s := prepared (running 1#32 0#32 .empty 0#128)
    ((0x12C#12).toNat % 4 = 0 ∧ regAt s.nctx (0x12C#12).toNat = some (.tag 0 3)) ∧
      AccessWidth.w64 ≠ .w32 ∧ (0xFFF#12).toNat % 4 ≠ 0 ∧
      regAt s.nctx (0x180#12).toNat = none := by decide

/-- RefusedAccessesChangeNothing: each clause, at the first offset of its range. -/
theorem test_witness_refused :
    AccessWidth.w8 ≠ .w32 ∧ (0x102#12).toNat % 4 ≠ 0 ∧
      (0x018 ≤ (0x018#12).toNat ∧ (0x018#12).toNat < 0x020) ∧
      (0x040 ≤ (0x040#12).toNat ∧ (0x040#12).toNat < 0x100) ∧
      (0x100 + 0x40 * 0 + 0x14 ≤ (0x114#12).toNat ∧ (0x114#12).toNat < 0x100 + 0x40 * 0 + 0x20) ∧
      (0x100 + 0x40 * 1 + 0x30 ≤ (0x170#12).toNat ∧ (0x170#12).toNat < 0x100 + 0x40 * 1 + 0x40) ∧
      0x100 + 0x40 * (unprepared idle).nctx ≤ (0x180#12).toNat := by decide

/-- RegisterMap: the last context of the largest instance, the last key and tag registers. -/
theorem test_witness_register_map : 31 < 32 ∧ 7 < 8 ∧ 3 < 4 := by decide

/-- LockedWritesRefused: a key register and a context register. -/
theorem test_witness_locked :
    let s := prepared (running 1#32 0#32 .empty 0#128)
    ((0x03C#12).toNat % 4 = 0 ∧ regAt s.nctx (0x03C#12).toNat = some (.key 7) ∧
      s.pstate ≠ .unprepared) ∧
    ((0x110#12).toNat % 4 = 0 ∧ regAt s.nctx (0x110#12).toNat = some (.msgdata32 0) ∧
      s.busy 0 = true) := by decide

/-- KeyWriteStoresFourBytes: `KEY7`, and a byte it does not hold. -/
theorem test_witness_key_write :
    (unprepared idle).pstate = .unprepared ∧ 7 < 8 ∧ 27 < 32 ∧ 27 / 4 ≠ 7 := by decide

/-- LengthAndPointerWrites (its writes), Data8StoresOneByte, Data32StoresFourBytes: an idle context, its pointer two
bytes below MSGCAP, so that two bytes of a word are stored and two are not. -/
theorem test_witness_message_writes :
    let x : Context := { idle with msgptr := 4094#32 }
    (unprepared x).nctx ≤ 32 ∧ (unprepared x).ctxs[0]? = some x ∧ x.busy = false ∧
      (x.msgptr.toNat + 1) % 2 ^ 32 < (unprepared x).msgcap.toNat ∧
      (unprepared x).msgcap.toNat ≤ (x.msgptr.toNat + 2) % 2 ^ 32 :=
  ⟨by decide, rfl, rfl, by decide, by decide⟩

/-- LengthAndPointerWrites: a busy context, for the reads. -/
theorem test_witness_busy_reads :
    let x := running 17#32 1#32 .empty 0#128
    (prepared x).nctx ≤ 32 ∧ (prepared x).ctxs[0]? = some x ∧ x.busy = true := ⟨by decide, rfl, rfl⟩

/-- ReadOnlyAndWriteOnly: a register of each kind. -/
theorem test_witness_read_only :
    (0x12C#12).toNat % 4 = 0 ∧ regAt (unprepared idle).nctx (0x12C#12).toNat = some (.tag 0 3) ∧
      (0x00C#12).toNat % 4 = 0 ∧ regAt (unprepared idle).nctx (0x00C#12).toNat = some .cmd := by decide

/-- TagReadsAreGated and StatusWordFields: a context with a tag, and one without. -/
theorem test_witness_tag_reads :
    (unprepared (finished 5#128)).ctxs[0]? = some (finished 5#128) ∧ (finished 5#128).done = true ∧
      (finished 5#128).cerr = .noError ∧ (unprepared idle).ctxs[0]? = some idle ∧ 3 < 4 :=
  ⟨rfl, rfl, rfl, rfl, by decide⟩

/-- IdentificationIsConstant, PrepStateTransitions: a step that starts a derivation. -/
theorem test_witness_step :
    ∃ t, step (withCmd 0x01000010#32 (unprepared idle)) = .next t ∧ t.pstate = .preparing :=
  ⟨_, rfl, rfl⟩

/-- KeyAndSubkeysAreImmutable: the derivation's receive step. -/
theorem test_witness_immutable :
    let s : State := { preparing true (.response false 1#128) with input := [.sequencer .derivation] }
    (∃ t, step s = .next t ∧ t.k1 = 2#128) ∧ (∀ rest, s.input ≠ .reset :: rest) ∧
      s.pstate ≠ .unprepared :=
  ⟨⟨_, rfl, by decide⟩, (fun _ h => nomatch h), (fun h => nomatch h)⟩

/-- MacNeverRaisesInvalidKeyLength: a step, from contexts without the error. -/
theorem test_witness_mac_error :
    (∃ t, step (withCmd 0x0100000A#32 (unprepared idle)) = .next t ∧ t.perr = .invalidKeyLength) ∧
      ∀ x ∈ (unprepared idle).ctxs, x.cerr ≠ .invalidKeyLength := ⟨⟨_, rfl, rfl⟩, by decide⟩

/-- ErrorsArePrecise: a step that records an error of a context, and one that records one of
`PREPARE`. -/
theorem test_witness_errors :
    let x := running 17#32 1#32 (.response true 5#128) 0#128
    (∃ t y, step { prepared x with input := [.sequencer (.context 0)] } = .next t ∧
      t.ctxs[0]? = some y ∧ y.cerr ≠ .noError ∧ y.cerr ≠ x.cerr) ∧
    (∃ t, step (withCmd 0x0100000A#32 (unprepared idle)) = .next t ∧ t.perr ≠ .noError ∧
      t.perr ≠ (unprepared idle).perr) :=
  ⟨⟨_, _, rfl, rfl, (fun h => nomatch h), (fun h => nomatch h)⟩,
    ⟨_, rfl, (fun h => nomatch h), (fun h => nomatch h)⟩⟩

/-- InvariantsHoldAtReset: the smallest and the largest instance, and a reset in a busy `FATAL` state. -/
theorem test_witness_parameters :
    (1 ≤ 1 ∧ 1 ≤ 32 ∧ 16 ≤ (16#32).toNat) ∧ (1 ≤ 32 ∧ 32 ≤ 32 ∧ 16 ≤ (0xFFFFFFFF#32).toNat) ∧
      (let s : State := { prepared (running 1#32 0#32 .empty 0#128) with pstate := .fatal }
       1 ≤ s.nctx ∧ s.nctx ≤ 32 ∧ 16 ≤ s.msgcap.toNat ∧ s.busy 0 = true) := by decide

/-- LoadKeyScript: a full key. -/
theorem test_witness_load_key :
    let s : State := { unprepared idle with input := lineLoadKey (List.replicate 32 0xFF#8) ++ [] }
    s.pstate = .unprepared ∧ (List.replicate 32 0xFF#8).length ≤ 32 ∧
      s.input = lineLoadKey (List.replicate 32 0xFF#8) ++ [] := ⟨rfl, by decide, rfl⟩

/-- SecretsDoNotShow: two states with different keys, messages and tags and the same view. -/
theorem test_witness_secrets :
    let s := { unprepared (finished 5#128) with input := [lineWr 0x020 1#32] }
    let t := { unprepared { finished 6#128 with mem := [(0, 1#8)] } with
      key := Vector.replicate 32 1#8, input := [lineWr 0x020 2#32] }
    s.publicView = t.publicView ∧ s.key ≠ t.key ∧ s.reply = t.reply ∧ readsTag s = false :=
  ⟨by rfl, by decide, rfl, rfl⟩

/-! ### Witnesses of the invariants -/

theorem idle_inv (cap : Word) : idle.Inv cap :=
  ⟨List.Pairwise.nil, (fun _ h => nomatch h), ⟨Nat.le_refl 0, Nat.zero_le _, Nat.le_refl 0⟩,
    (fun h => nomatch h), fun h => absurd rfl h, (fun h => nomatch h), (fun h => nomatch h)⟩

theorem prepared_inv {x : Context} (hx : x.Inv 4096#32) : (prepared x).Inv :=
  { contexts := ⟨(by decide : 1 ≤ 2), (by decide : 2 ≤ 32)⟩
    capacity := (by decide : 16 ≤ (4096#32).toNat)
    keyLength := fun _ => rfl
    noSubkeys := fun h => by rcases h with h | h <;> cases h
    derivation := fun h => absurd rfl h
    awaiting := fun h => nomatch h
    eachContext := fun y hy => by
      rcases List.mem_cons.mp hy with rfl | hy
      · exact hx
      · rcases List.mem_cons.mp hy with rfl | hy
        · exact idle_inv _
        · cases hy }

theorem prepared_subkeyInv (x : Context) : (prepared x).SubkeyInv :=
  ⟨fun _ => rfl, (fun _ h => nomatch h), (fun _ h => nomatch h)⟩

/-- The one ciphertext Block, and so the tag, of the empty message in the prepared state. -/
def emptyTag : Block := (prepared idle).chain 0 { idle with msglen := 0#32 } 0

/-- The context whose last response beat is in flight. -/
def ending : Context := running 0#32 1#32 (.response false emptyTag) emptyTag

theorem ending_inv : ending.Inv 4096#32 :=
  { memWf := List.Pairwise.nil
    memBound := fun _ h => nomatch h
    counters := ⟨by decide, by decide, by decide⟩
    busyMessage := fun _ => ⟨by decide, by decide, rfl⟩
    inFlight := fun _ => ⟨rfl, by decide⟩
    doneIdle := fun h => nomatch h
    running := fun _ => ⟨by decide, fun h => nomatch h⟩ }

theorem ending_chains : (prepared ending).ChainsInv := by
  intro c x hx hb
  rcases c with _ | _ | c
  · cases hx
    exact
      { fresh := fun _ => rfl
        received := fun h => absurd h (by decide)
        asked := fun _ h => nomatch h
        chained := fun h => absurd rfl (h false emptyTag)
        answered := fun b h => by cases h; exact ⟨rfl, rfl⟩ }
  · cases hx
    cases hb
  · cases hx

/-- The invariant does not see the input. -/
theorem inv_withInput {s : State} (h : s.Inv) (l : List Event) : ({ s with input := l } : State).Inv :=
  ⟨h.contexts, h.capacity, h.keyLength, h.noSubkeys, h.derivation, h.awaiting, h.eachContext⟩

/-- InvariantKeptByEveryStep, SubkeysStayDerived, SessionsStayChains, CompletedTagIsCmac: the step that
ends the computation of the empty message. -/
theorem test_witness_invariants :
    let s : State := { prepared ending with input := [.sequencer (.context 0)] }
    s.Inv ∧ s.SubkeyInv ∧ s.ChainsInv ∧ s.ctxs[0]? = some ending ∧ ending.busy = true ∧
      ∃ t y, step s = .next t ∧ t.ctxs[0]? = some y ∧ y.done = true ∧ y.cerr = .noError := by
  have hk := prepared_subkeyInv ending
  refine ⟨inv_withInput (prepared_inv ending_inv) _, ⟨hk.derived, hk.asked, hk.answered⟩, ?_, rfl, rfl,
    _, _, rfl, rfl, rfl, rfl⟩
  intro c x hx hb
  obtain ⟨h1, h2, h3, h4, h5⟩ := ending_chains c x hx hb
  exact ⟨h1, h2, h3, h4, h5⟩

theorem finished_inv (acc : Block) : (finished acc).Inv 4096#32 :=
  { memWf := List.Pairwise.nil
    memBound := fun _ h => nomatch h
    counters := ⟨Nat.le_refl 1, Nat.le_succ 1, Nat.le_refl 1⟩
    busyMessage := fun h => nomatch h
    inFlight := fun h => absurd rfl h
    doneIdle := fun _ => rfl
    running := fun h => nomatch h }

/-- ResultStaysReadable: a finished context and each of the three ways on: a read, its next `MAC`, a
reset. -/
theorem test_witness_result :
    let s (l : List Event) : State := { prepared (finished 5#128) with input := l }
    (∀ l, (s l).Inv ∧ (s l).ctxs[0]? = some (finished 5#128)) ∧ (finished 5#128).done = true ∧
      (∃ t, step (s [lineRd 0x120]) = .next t ∧ t.busy 0 = false) ∧
      (∃ t, step (s [cmdWrite 0x02000000#32]) = .next t ∧ t.busy 0 = true) ∧
      (∃ t, step (s [.reset]) = .next t ∧ t.pstate = .unprepared) :=
  ⟨fun l => ⟨inv_withInput (prepared_inv (finished_inv _)) l, rfl⟩, rfl, ⟨_, rfl, rfl⟩, ⟨_, rfl, rfl⟩,
    ⟨_, rfl, rfl⟩⟩

/-- QuiescentIffNothingEnabled, WorkEndsInBoundedSteps: a state of each kind, without input. -/
theorem test_witness_quiescent :
    (prepared idle).Inv ∧ (prepared idle).quiescent ∧ (prepared idle).input = [] ∧
      (prepared ending).Inv ∧ ¬ (prepared ending).quiescent ∧ (prepared ending).input = [] ∧
      (prepared ending).work = 1 := by
  refine ⟨prepared_inv (idle_inv _), ⟨(fun h => nomatch h), ?_⟩, rfl, prepared_inv ending_inv, ?_, rfl, ?_⟩
  · decide
  · intro h
    exact nomatch h.2 ending (List.mem_cons_self ..)
  · rfl

end Sys2Proof.Tests
end

section
/-!
What can happen to a context while it computes (spec/43_tag_engine.md R202 to R206), and O32: the
computation that ends without an error leaves the AES-CMAC tag (spec/00_scope.md R1).
-/

namespace Sys2Proof.Machine

/-! ### A busy context under a step -/

/-- The changes of a busy context `x`: `q` is the beat it sends next, `n` the number of the provider's
next answer. -/
inductive BusyChange (q : Request) (n : Nat) (x : Context) : Context → Prop where
  | unchanged : BusyChange q n x x
  /-- R203. -/
  | sent (hi : x.port.infl = .empty) (he : x.sent = x.rcvd) (hn : x.sent < x.nblk) :
      BusyChange q n x { x with port := x.port.setSlot (.request q), sent := x.sent + 1#32 }
  /-- R102. -/
  | answered (p : Request) (hi : x.port.infl = .request p) :
      BusyChange q n x { x with port := providerAnswer n x.port p }
  /-- R204. -/
  | received (b : Block) (hi : x.port.infl = .response false b)
      (hn : x.rcvd.toNat + 1 < x.nblk.toNat) :
      BusyChange q n x
        { x with port := x.port.setSlot .empty, acc := b, rcvd := x.rcvd + 1#32 }
  /-- R205. -/
  | completed (b : Block) (hi : x.port.infl = .response false b)
      (hn : x.rcvd.toNat + 1 = x.nblk.toNat) :
      BusyChange q n x
        { x with
          port := x.port.setSlot .empty, acc := b, rcvd := x.rcvd + 1#32, busy := false,
          done := true }
  /-- R206. -/
  | failed (b : Block) (hi : x.port.infl = .response true b) :
      BusyChange q n x
        { x with
          cerr := .providerFailure, port := x.port.setSlot .empty, acc := zeroBlock, busy := false,
          done := true }
  /-- R290. -/
  | reset (cv : Block) : BusyChange q n x (Context.afterReset cv)

section
variable {s t : State} {c d : Nat} {x y z : Context}

/-- After a change of context d, context c has changed as d has if it is d, and not at all if it is
another. -/
theorem BusyChange.of_updateCtx {q : Request} {n : Nat} {f : Context → Context}
    (hx : s.ctxs[c]? = some x) (hz : s.ctxs[d]? = some z)
    (hy : (s.updateCtx d f).ctxs[c]? = some y)
    (h : d = c → z = x → BusyChange q n x (f x)) : BusyChange q n x y := by
  rw [updateCtx_getElem?, hx] at hy
  split_ifs at hy with hd <;> cases hy
  · subst hd
    exact h rfl (Option.some.inj (hz.symm.trans hx))
  · exact .unchanged

/-- Everything an effect can do to a busy context. -/
theorem Effect.busyChange (he : Effect s t) (hx : s.ctxs[c]? = some x) (hb : x.busy = true)
    (hy : t.ctxs[c]? = some y) : BusyChange (s.tagRequest c x) s.draws x y := by
  have notIdle {z : Context} {P : Prop} (idle : z.busy = false) (hzx : z = x) : P := by
    cases hb.symm.trans (hzx ▸ idle)
  cases he with
  | nothing | replied | rejected | prepareIllegal | prepareStart | keyWrite | deriveSend
  | deriveReceive | deriveFail | providerDerivation =>
    exact Option.some.inj (hx.symm.trans hy) ▸ .unchanged
  | macStart d z _ hz idle _ =>
    rw [macStart_eq] at hy
    exact .of_updateCtx hx hz hy fun _ => notIdle idle
  | msglenWrite d z v hz idle => exact .of_updateCtx hx hz hy fun _ => notIdle idle
  | msgptrWrite d z v hz idle => exact .of_updateCtx hx hz hy fun _ => notIdle idle
  | data8 d z v hz idle => exact .of_updateCtx hx hz hy fun _ => notIdle idle
  | data32 d z v hz idle => exact .of_updateCtx hx hz hy fun _ => notIdle idle
  | tagSend d z hz _ hi he hn =>
    exact .of_updateCtx hx hz hy (by rintro rfl rfl; exact .sent hi he hn)
  | tagReceive d z b hz _ hi hn =>
    exact .of_updateCtx hx hz hy (by rintro rfl rfl; exact .received b hi hn)
  | tagReceiveLast d z b hz _ hi hn =>
    rw [tagReceiveLast_eq] at hy
    exact .of_updateCtx hx hz hy (by rintro rfl rfl; exact .completed b hi hn)
  | tagFail d z b hz _ hi =>
    rw [tagFail_eq] at hy
    exact .of_updateCtx hx hz hy (by rintro rfl rfl; exact .failed b hi)
  | providerContext d z p hz hi =>
    exact .of_updateCtx hx hz hy (by rintro rfl rfl; exact .answered p hi)
  | reset =>
    obtain ⟨-, rfl⟩ := afterReset_getElem? (cap := s.msgcap) hy
    exact .reset _

/-- Everything a step can do to a busy context. -/
theorem step_busyChange (h : step s = .next t) (hx : s.ctxs[c]? = some x) (hb : x.busy = true)
    (hy : t.ctxs[c]? = some y) : BusyChange (s.tagRequest c x) s.draws x y := by
  obtain ⟨t', ht, hcases⟩ := step_effect s
  cases h.symm.trans ht
  rcases hcases with ⟨-, -, rfl⟩ | ⟨e, u, hu, -, he⟩
  · exact Effect.nothing.busyChange hx hb hy
  · rw [nextEvent_state hu] at he
    exact he.busyChange hx hb hy

/-- A computation ends without an error only in the receive step of its last Block (R205). -/
theorem BusyChange.completed_of_done {q : Request} {n : Nat} (h : BusyChange q n x y)
    (hx : x.done = false) (hdone : y.done = true) (herr : y.cerr = .noError) :
    ∃ b, x.port.infl = .response false b ∧ x.rcvd.toNat + 1 = x.nblk.toNat ∧ y.acc = b ∧
      y.sent = x.sent ∧ y.rcvd = x.rcvd + 1#32 := by
  cases h with
  | completed b hi hn => exact ⟨b, hi, hn, rfl, rfl, rfl⟩
  | failed => cases herr
  | unchanged | sent | answered | received => cases hx.symm.trans hdone
  | reset => cases hdone

/-! ### The tag -/

/-- A busy context computes under the subkeys of the key (R33, R63 c). -/
theorem subkeys_of_busy (hs : s.Inv) (hk : s.SubkeyInv) (hx : s.ctxs[c]? = some x)
    (hb : x.busy = true) : (s.k1, s.k2) = deriveSubkeys s.keylen s.keyBytes := by
  have hno : ¬ (s.pstate = .unprepared ∨ s.pstate = .preparing) := fun h => by
    obtain ⟨-, -, hidle⟩ := hs.noSubkeys h
    cases hb.symm.trans (hidle x (List.mem_of_getElem? hx))
  cases hp : s.pstate with
  | unprepared => exact absurd (.inl hp) hno
  | preparing => exact absurd (.inr hp) hno
  | prepared => exact hk.derived (.inl hp)
  | fatal => exact hk.derived (.inr hp)

/-- The last ciphertext Block of a context's session is AES-CMAC when the subkeys are the key's
(R200, R201). -/
theorem chain_last_eq_cmac (h : (s.k1, s.k2) = deriveSubkeys s.keylen s.keyBytes) :
    s.chain c x (nblk x.msglen.toNat - 1) =
      cmac s.keylen s.keyBytes x.msglen.toNat (messageByte s.resets c x) := by
  rw [cmac, ← h]
  rfl

/-- The `TAG` registers of a context with a valid tag read as the words of `ACC` (R55). -/
theorem readReg_tag_of_valid (hx : s.ctxs[c]? = some x) (hdone : x.done = true)
    (herr : x.cerr = .noError) (k : Nat) : readReg (.tag c k) s = blockWord x.acc k := by
  simp [readReg, ofContext, hx, tagWord, tagValid, hdone, herr]

end

/-- Settles O32: of all changes of a busy context only the receive step of the last Block ends it
without an error, and by the chain invariant that Block is the last of the CBC chain. -/
theorem completedTagIsCmac : Obligations.CompletedTagIsCmac := by
  intro s t c x y hs hk hc hx hb hstep hy hdone herr
  obtain ⟨-, -, -, hmessage, hflight, hidle, -⟩ := hs.eachContext x (List.mem_of_getElem? hx)
  obtain ⟨-, hblocks, -⟩ := hmessage hb
  have hnot : x.done = false := Bool.eq_false_iff.mpr fun h => by cases hb.symm.trans (hidle h)
  obtain ⟨b, hi, hlast, hacc, hsent, hrcvd⟩ :=
    (step_busyChange hstep hx hb hy).completed_of_done hnot hdone herr
  obtain ⟨hchain, -⟩ := (hc c x hx hb).answered b hi
  obtain ⟨-, hcount⟩ := hflight (by simp [hi])
  refine ⟨?_, readReg_tag_of_valid hy hdone herr, ?_, ?_⟩
  · calc
      y.acc = s.chain c x x.rcvd.toNat := hacc.trans hchain
      _ = s.chain c x (nblk x.msglen.toNat - 1) := by rw [← hblocks, ← hlast, Nat.add_sub_cancel]
      _ = _ := chain_last_eq_cmac (subkeys_of_busy hs hk hx hb)
  · rw [hsent, hcount, hlast, hblocks]
  · rw [hrcvd, add_one_toNat (y := x.nblk) (by omega), hlast, hblocks]

end Sys2Proof.Machine
end

section
/-!
The invariant of spec/10_state.md R63 (with R12, R56, R58): every change of a context and every effect of
a step keeps it (O55), it holds after a reset, and with it the subkeys stay those of the key (O25).
-/

namespace Sys2Proof.Machine

/-! ### One context -/

section
variable {cap : Word} {x y : Context}

/-- A context after reset is idle and empty (R62). -/
theorem Context.afterReset_inv (cap : Word) (cv : Block) : (Context.afterReset cv).Inv cap where
  memWf := Memory.wf_nil
  memBound := nofun
  counters := ⟨Nat.le_refl 0, Nat.zero_le _, Nat.le_refl 0⟩
  busyMessage := nofun
  inFlight := fun h => absurd rfl h
  doneIdle := nofun
  running := nofun

/-- The provider answers a request beat with a response beat, whatever its draw (R102). -/
theorem providerAnswer_infl (n : Nat) (p : Port) (q : Request) :
    ∃ err b, (providerAnswer n p q).infl = .response err b := by
  unfold providerAnswer
  split
  · exact ⟨_, _, rfl⟩
  · exact ⟨_, _, rfl⟩

theorem providerAnswer_infl_ne_empty (n : Nat) (p : Port) (q : Request) :
    (providerAnswer n p q).infl ≠ .empty := by
  obtain ⟨err, b, h⟩ := providerAnswer_infl n p q
  rw [h]
  exact nofun

/-- Everything that happens to a computing context keeps its invariant (R203 to R206, R102, R290). -/
theorem Context.Inv.of_busyChange {q : Request} {n : Nat} (h : x.Inv cap) (hb : x.busy = true)
    (hc : BusyChange q n x y) : y.Inv cap := by
  obtain ⟨hwf, hbound, ⟨hrs, hsr, hsn⟩, hmessage, hflight, hdone, hrunning⟩ := h
  cases hc with
  | unchanged => exact ⟨hwf, hbound, ⟨hrs, hsr, hsn⟩, hmessage, hflight, hdone, hrunning⟩
  | sent hi he hn =>
    have hsent : (x.sent + 1#32).toNat = x.sent.toNat + 1 := add_one_toNat hn
    have hsame : x.sent.toNat = x.rcvd.toNat := congrArg _ he
    refine ⟨hwf, hbound, ?_, hmessage, fun _ => ⟨hb, ?_⟩, hdone, fun _ => ⟨(hrunning hb).1, ?_⟩⟩
    · have : x.sent.toNat < x.nblk.toNat := hn
      dsimp only
      omega
    · dsimp only
      omega
    · exact nofun
  | answered p hi =>
    exact ⟨hwf, hbound, ⟨hrs, hsr, hsn⟩, hmessage, fun _ => hflight (by simp [hi]), hdone,
      fun _ => ⟨(hrunning hb).1, fun h => absurd h (providerAnswer_infl_ne_empty _ _ _)⟩⟩
  | received b hi hn =>
    have hrcvd : (x.rcvd + 1#32).toNat = x.rcvd.toNat + 1 := add_one_toNat (by omega : _ < x.nblk.toNat)
    obtain ⟨-, hsent⟩ := hflight (by simp [hi])
    refine ⟨hwf, hbound, ?_, hmessage, fun h => absurd rfl h, hdone, fun _ => ⟨?_, fun _ => ?_⟩⟩
    · dsimp only
      omega
    · dsimp only
      omega
    · exact BitVec.eq_of_toNat_eq (hsent.trans hrcvd.symm)
  | completed b hi hn =>
    have hrcvd : (x.rcvd + 1#32).toNat = x.rcvd.toNat + 1 := add_one_toNat (by omega : _ < x.nblk.toNat)
    obtain ⟨-, hsent⟩ := hflight (by simp [hi])
    refine ⟨hwf, hbound, ?_, nofun, fun h => absurd rfl h, fun _ => rfl, nofun⟩
    dsimp only
    omega
  | failed b hi =>
    exact ⟨hwf, hbound, ⟨hrs, hsr, hsn⟩, nofun, fun h => absurd rfl h, fun _ => rfl, nofun⟩
  | reset cv => exact Context.afterReset_inv cap cv

/-- The start of a computation whose message fits its memory (R230). -/
theorem Context.Inv.started (h : x.Inv cap) (idle : x.busy = false) (hlen : x.msglen ≤ cap) :
    Context.Inv cap
      { x with
        busy := true, done := false, cerr := .noError,
        nblk := BitVec.ofNat 32 (Sys2Proof.Machine.nblk x.msglen.toNat), sent := 0#32, rcvd := 0#32,
        acc := zeroBlock } where
  memWf := h.memWf
  memBound := h.memBound
  counters := ⟨Nat.le_refl 0, Nat.zero_le _, Nat.zero_le _⟩
  busyMessage := fun _ => ⟨hlen, nblk_toNat _, rfl⟩
  inFlight := fun hi => by cases idle.symm.trans (h.inFlight hi).1
  doneIdle := nofun
  running := fun _ => ⟨by rw [nblk_toNat]; exact nblk_pos _, fun _ => rfl⟩

/-- The host's writes to an idle context: its length, its pointer and its memory do not matter, as long
as the memory stays canonical and inside MSGCAP (R52, R53, R82, R83). -/
theorem Context.Inv.written (h : x.Inv cap) (idle : x.busy = false) (len ptr : Word) {m : Memory}
    (hwf : m.wf) (hbound : ∀ cell ∈ m, cell.1 < cap.toNat) :
    Context.Inv cap { x with msglen := len, msgptr := ptr, mem := m } where
  memWf := hwf
  memBound := hbound
  counters := h.counters
  busyMessage := fun hb => by cases idle.symm.trans hb
  inFlight := h.inFlight
  doneIdle := h.doneIdle
  running := h.running

end

/-! ### The whole state -/

section
variable {s t : State} {c : Nat} {x : Context} {f : Context → Context}

/-- The fields that the invariant does not see. -/
theorem State.Inv.frame (h : s.Inv) (key : Vector Byte 32) (perr : ErrorCode) (rej : Rejection)
    (input : List Event) (reply : Option Reply) (resets draws picks : Nat) :
    State.Inv
      { s with
        key := key, perr := perr, rej := rej, input := input, reply := reply, resets := resets,
        draws := draws, picks := picks } :=
  ⟨h.contexts, h.capacity, h.keyLength, h.noSubkeys, h.derivation, h.awaiting, h.eachContext⟩

/-- A change of one context keeps the invariant if it keeps the context's own and makes the context busy
in PREPARED only. -/
theorem State.Inv.updateCtx (h : s.Inv) (hx : s.ctxs[c]? = some x) (hf : (f x).Inv s.msgcap)
    (hbusy : (f x).busy = true → x.busy = true ∨ s.pstate = .prepared) : (s.updateCtx c f).Inv where
  contexts := by rw [updateCtx_nctx]; exact h.contexts
  capacity := h.capacity
  keyLength := h.keyLength
  noSubkeys := fun hp => by
    obtain ⟨h1, h2, hidle⟩ := h.noSubkeys hp
    refine ⟨h1, h2, fun y hy => ?_⟩
    rcases mem_updateCtx hy with hy | ⟨z, hz, -, rfl⟩
    · exact hidle y hy
    · cases hx.symm.trans hz
      refine Bool.eq_false_iff.mpr fun hb => ?_
      rcases hbusy hb with hb | hprep
      · cases hb.symm.trans (hidle x (List.mem_of_getElem? hx))
      · rcases hp with hp | hp <;> cases hprep.symm.trans hp
  derivation := h.derivation
  awaiting := h.awaiting
  eachContext := fun y hy => by
    rcases mem_updateCtx hy with hy | ⟨z, hz, -, rfl⟩
    · exact h.eachContext y hy
    · cases hx.symm.trans hz
      exact hf

/-- A step of a computing context keeps the invariant. -/
theorem State.Inv.busyStep (h : s.Inv) (hx : s.ctxs[c]? = some x) (hb : x.busy = true)
    (hc : BusyChange (s.tagRequest c x) s.draws x (f x)) : (s.updateCtx c f).Inv :=
  h.updateCtx hx ((h.eachContext x (List.mem_of_getElem? hx)).of_busyChange hb hc) fun _ => .inl hb

/-- A host write to an idle context keeps the invariant. -/
theorem State.Inv.hostWrite (h : s.Inv) (hx : s.ctxs[c]? = some x) (idle : x.busy = false)
    (len ptr : Word) {m : Memory} (hf : f x = { x with msglen := len, msgptr := ptr, mem := m })
    (hwf : x.mem.wf → m.wf)
    (hbound : (∀ cell ∈ x.mem, cell.1 < s.msgcap.toNat) → ∀ cell ∈ m, cell.1 < s.msgcap.toNat) :
    (s.updateCtx c f).Inv := by
  have hc := h.eachContext x (List.mem_of_getElem? hx)
  refine h.updateCtx hx ?_ ?_ <;> rw [hf]
  · exact hc.written idle len ptr (hwf hc.memWf) (hbound hc.memBound)
  · exact .inl

/-- Before the first beat of a derivation nothing is in flight on its session (R63 e). -/
theorem State.Inv.drv_empty (h : s.Inv) (hp : s.pstate = .unprepared) : s.drv.infl = .empty :=
  not_not.mp fun hi => by cases hp.symm.trans (h.derivation hi).1

theorem State.Inv.prepareStart {n : Nat} (h : s.Inv) (hp : s.pstate = .unprepared)
    (hn : legalKeyLength n = true) : (prepareStart n s).Inv where
  contexts := h.contexts
  capacity := h.capacity
  keyLength := fun _ => by
    rcases (legalKeyLength_iff n).mp hn with rfl | rfl | rfl <;> rfl
  noSubkeys := fun _ => h.noSubkeys (.inl hp)
  derivation := fun hi => absurd (h.drv_empty hp) hi
  awaiting := fun _ hd => nomatch hd
  eachContext := h.eachContext

theorem State.Inv.deriveSend (h : s.Inv) (hp : s.pstate = .preparing) : (deriveSend s).Inv where
  contexts := h.contexts
  capacity := h.capacity
  keyLength := h.keyLength
  noSubkeys := h.noSubkeys
  derivation := fun _ => ⟨hp, rfl⟩
  awaiting := fun _ _ hi => nomatch hi
  eachContext := h.eachContext

theorem State.Inv.deriveReceive (h : s.Inv) (hp : s.pstate = .preparing) (b : Block) :
    (deriveReceive b s).Inv where
  contexts := h.contexts
  capacity := h.capacity
  keyLength := fun _ => h.keyLength (by simp [hp])
  noSubkeys := fun hq => by rcases hq with hq | hq <;> cases hq
  derivation := fun hi => absurd rfl hi
  awaiting := fun hq => nomatch hq
  eachContext := h.eachContext

theorem State.Inv.deriveFail (h : s.Inv) (hp : s.pstate = .preparing) : (deriveFail s).Inv where
  contexts := h.contexts
  capacity := h.capacity
  keyLength := fun hq => absurd rfl hq
  noSubkeys := fun _ => h.noSubkeys (.inr hp)
  derivation := fun hi => absurd rfl hi
  awaiting := fun hq => nomatch hq
  eachContext := h.eachContext

/-- The provider's answer to the derivation's beat leaves a beat in flight (R102). -/
theorem State.Inv.answerDerivation {q : Request} (h : s.Inv) (hi : s.drv.infl = .request q) (n : Nat) :
    (s.setPort .derivation (providerAnswer n s.drv q)).Inv where
  contexts := h.contexts
  capacity := h.capacity
  keyLength := h.keyLength
  noSubkeys := h.noSubkeys
  derivation := fun _ => h.derivation (by simp [hi])
  awaiting := fun _ _ => providerAnswer_infl_ne_empty _ _ _
  eachContext := h.eachContext

/-- Every context after reset is an empty one (R62). -/
theorem mem_afterReset {n r : Nat} {cap : Word} (h : x ∈ (State.afterReset n cap r).ctxs) :
    ∃ cv, x = Context.afterReset cv := by
  obtain ⟨c, hc⟩ := List.mem_iff_getElem?.mp h
  exact ⟨_, (afterReset_getElem? hc).2⟩

theorem State.afterReset_inv {n : Nat} {cap : Word} (h1 : 1 ≤ n) (h32 : n ≤ 32)
    (hcap : 16 ≤ cap.toNat) (r : Nat) : (State.afterReset n cap r).Inv where
  contexts := by rw [afterReset_nctx]; exact ⟨h1, h32⟩
  capacity := hcap
  keyLength := fun hp => absurd rfl hp
  noSubkeys := fun _ => ⟨rfl, rfl, fun x hx => by
    obtain ⟨cv, rfl⟩ := mem_afterReset hx
    rfl⟩
  derivation := fun hi => absurd rfl hi
  awaiting := fun hp => nomatch hp
  eachContext := fun x hx => by
    obtain ⟨cv, rfl⟩ := mem_afterReset hx
    exact Context.afterReset_inv cap _

theorem resetStep_inv (h1 : 1 ≤ s.nctx) (h32 : s.nctx ≤ 32) (hcap : 16 ≤ s.msgcap.toNat) :
    (resetStep s).Inv :=
  (State.afterReset_inv h1 h32 hcap _).frame ..

/-- Every effect keeps the invariant. -/
theorem State.Inv.of_effect (h : s.Inv) (he : Effect s t) : t.Inv := by
  cases he with
  | nothing => exact h
  | replied | rejected | prepareIllegal | keyWrite => exact h.frame ..
  | prepareStart n hp hn => exact (h.prepareStart hp hn).frame ..
  | macStart c x hp hx idle hlen =>
    have hc := (h.eachContext x (List.mem_of_getElem? hx)).started idle hlen
    have ha : ({ s with rej := .accepted } : State).Inv := h.frame ..
    rw [macStart_eq]
    exact (ha.updateCtx hx hc fun _ => .inr hp).frame ..
  | msglenWrite c x v hx idle => exact (h.hostWrite hx idle v x.msgptr rfl id id).frame ..
  | msgptrWrite c x v hx idle => exact (h.hostWrite hx idle x.msglen v rfl id id).frame ..
  | data8 c x v hx idle =>
    exact (h.hostWrite hx idle x.msglen _ rfl (storeByte_wf _ _) (storeByte_bound _ _)).frame ..
  | data32 c x v hx idle =>
    exact (h.hostWrite hx idle x.msglen _ rfl (storeWord_wf _ _) (storeWord_bound _ _)).frame ..
  | deriveSend hp => exact h.deriveSend hp
  | deriveReceive b hp => exact h.deriveReceive hp b
  | deriveFail b hp => exact h.deriveFail hp
  | tagSend c x hx hb hi heq hn => exact h.busyStep hx hb (.sent hi heq hn)
  | tagReceive c x b hx hb hi hn => exact h.busyStep hx hb (.received b hi hn)
  | tagReceiveLast c x b hx hb hi hn =>
    rw [tagReceiveLast_eq]
    exact h.busyStep hx hb (.completed b hi hn)
  | tagFail c x b hx hb hi =>
    rw [tagFail_eq]
    exact h.busyStep hx hb (.failed b hi)
  | providerDerivation q hi => exact (h.answerDerivation hi _).frame ..
  | providerContext c x q hx hi =>
    have hc := h.eachContext x (List.mem_of_getElem? hx)
    exact (h.busyStep hx (hc.inFlight (by simp [hi])).1 (.answered q hi)).frame ..
  | reset => exact resetStep_inv h.contexts.1 h.contexts.2 h.capacity

/-! ### The subkeys -/

/-- The derivation's answer, when it succeeds, is `E` of the zero Block (R102, R171). -/
theorem providerAnswer_derivation {n : Nat} {p : Port} {b : Block}
    (h : (providerAnswer n p s.derivationRequest).infl = .response false b) :
    b = cipherOfZero s.keylen s.keyBytes := by
  unfold providerAnswer at h
  split at h <;> cases h
  exact congrArg _ (BitVec.xor_self (x := zeroBlock))

/-- Before the derivation has ended and with no beat in flight there is nothing to keep. -/
theorem State.SubkeyInv.of_no_beat (hp : s.pstate = .unprepared ∨ s.pstate = .preparing)
    (hi : s.drv.infl = .empty) : s.SubkeyInv where
  derived := by rcases hp with hp | hp <;> simp [hp]
  asked := fun q h => nomatch hi.symm.trans h
  answered := fun b h => nomatch hi.symm.trans h

/-- Every effect keeps the subkeys' invariant. -/
theorem State.SubkeyInv.of_effect (hk : s.SubkeyInv) (hs : s.Inv) (he : Effect s t) :
    t.SubkeyInv := by
  cases he with
  | nothing | replied | rejected | prepareIllegal | macStart | msglenWrite | msgptrWrite | data8 | data32
  | tagSend | tagReceive | tagReceiveLast | tagFail | providerContext =>
    exact ⟨hk.derived, hk.asked, hk.answered⟩
  | prepareStart n hp => exact .of_no_beat (.inr rfl) (hs.drv_empty hp)
  | keyWrite k v hp => exact .of_no_beat (.inl hp) (hs.drv_empty hp)
  | deriveSend hp =>
    refine ⟨?_, fun q h => (Slot.request.inj h).symm, nofun⟩
    simp [deriveSend, hp]
  | deriveReceive b hp hd hi =>
    refine ⟨fun _ => ?_, nofun, nofun⟩
    rw [hk.answered b hi]
    rfl
  | deriveFail => exact .of_no_beat (.inl rfl) rfl
  | providerDerivation q hi =>
    obtain rfl := hk.asked q hi
    obtain ⟨err, b, hb⟩ := providerAnswer_infl s.draws s.drv s.derivationRequest
    exact ⟨hk.derived, fun q h => (nomatch hb.symm.trans h), fun b h => providerAnswer_derivation h⟩
  | reset => exact .of_no_beat (.inl rfl) rfl

end

/-! ### The obligations -/

/-- Settles O55: the invariant does not see the schedule, and every effect keeps it. -/
theorem invariantKeptByEveryStep : Obligations.InvariantKeptByEveryStep := fun _ _ hs hstep =>
  step_keeps (fun _ _ _ h => h.frame ..) (fun _ _ => State.Inv.of_effect) hs hstep

/-- Settles O25: the invariant of R63 and the subkeys' are kept together by every step. -/
theorem subkeysStayDerived : Obligations.SubkeysStayDerived := by
  intro s t hs hk hstep
  have hboth : t.Inv ∧ t.SubkeyInv :=
    step_keeps (P := fun s => s.Inv ∧ s.SubkeyInv)
      (fun _ _ _ ⟨h, hk⟩ => ⟨h.frame .., hk.derived, hk.asked, hk.answered⟩)
      (fun _ _ ⟨h, hk⟩ he => ⟨h.of_effect he, hk.of_effect h he⟩) ⟨hs, hk⟩ hstep
  exact hboth.2

end Sys2Proof.Machine
end

section
/-!
What a step does to the preparation state and to the parameters (spec/10_state.md R33, R34, R39, R44),
and that a step of one context is its own (R50).
-/

namespace Sys2Proof.Machine

section
variable {s t : State}

/-! ### The parameters -/

/-- No effect changes NCTX or MSGCAP, not even reset (R44, R61). -/
theorem Effect.keeps_parameters (he : Effect s t) : t.nctx = s.nctx ∧ t.msgcap = s.msgcap := by
  cases he with
  | nothing | replied | rejected | prepareIllegal | prepareStart | keyWrite | deriveSend
  | deriveReceive | deriveFail | providerDerivation => exact ⟨rfl, rfl⟩
  | macStart => rw [macStart_eq]; exact ⟨updateCtx_nctx _ _ _, rfl⟩
  | tagReceiveLast => rw [tagReceiveLast_eq]; exact ⟨updateCtx_nctx _ _ _, rfl⟩
  | tagFail => rw [tagFail_eq]; exact ⟨updateCtx_nctx _ _ _, rfl⟩
  | msglenWrite | msgptrWrite | data8 | data32 | tagSend | tagReceive | providerContext =>
    exact ⟨updateCtx_nctx _ _ _, rfl⟩
  | reset => exact ⟨resetStep_nctx s, rfl⟩

/-- No step changes the parameters. -/
theorem step_keeps_parameters (h : step s = .next t) : t.nctx = s.nctx ∧ t.msgcap = s.msgcap :=
  step_keeps (P := fun u => u.nctx = s.nctx ∧ u.msgcap = s.msgcap) (fun _ _ _ hu => hu)
    (fun _ _ ⟨hn, hm⟩ he => ⟨he.keeps_parameters.1.trans hn, he.keeps_parameters.2.trans hm⟩) ⟨rfl, rfl⟩ h

/-! ### The key and the subkeys -/

/-- Of the effects other than reset only those of an UNPREPARED core touch the key or its length, and
only the derivation's receive step touches the subkeys (R39, R174). -/
theorem Effect.keeps_key_subkeys (he : Effect s t) (hr : t.resets = s.resets) :
    (s.pstate ≠ .unprepared → t.key = s.key ∧ t.keylen = s.keylen) ∧
    ((t.k1 = s.k1 ∧ t.k2 = s.k2) ∨
      ∃ b, s.pstate = .preparing ∧ s.dsent = true ∧ s.drv.infl = .response false b ∧
        t.k1 = double b ∧ t.k2 = double (double b) ∧ t.pstate = .prepared) := by
  cases he with
  | nothing | replied | rejected | prepareIllegal | macStart | msglenWrite | msgptrWrite | data8 | data32
  | deriveSend | deriveFail | tagSend | tagReceive | tagReceiveLast | tagFail | providerDerivation
  | providerContext => exact ⟨fun _ => ⟨rfl, rfl⟩, .inl ⟨rfl, rfl⟩⟩
  | prepareStart n hp | keyWrite k v hp => exact ⟨absurd hp, .inl ⟨rfl, rfl⟩⟩
  | deriveReceive b hp hd hi => exact ⟨fun _ => ⟨rfl, rfl⟩, .inr ⟨b, hp, hd, hi, rfl, rfl, rfl⟩⟩
  | reset => exact absurd hr (Nat.succ_ne_self _)

/-! ### The preparation state -/

/-- The transitions of `PSTATE` by an effect other than reset (R34). -/
theorem Effect.pstate_cases (he : Effect s t) (hr : t.resets = s.resets) :
    t.pstate = s.pstate ∨ (s.pstate = .unprepared ∧ t.pstate = .preparing) ∨
    (s.pstate = .preparing ∧ t.pstate = .prepared) ∨
    (s.pstate = .preparing ∧ t.pstate = .unprepared ∧ t.perr = .providerFailure) := by
  cases he with
  | nothing | replied | rejected | prepareIllegal | keyWrite | macStart | msglenWrite | msgptrWrite
  | data8 | data32 | deriveSend | tagSend | tagReceive | tagReceiveLast | tagFail | providerDerivation
  | providerContext => exact .inl rfl
  | prepareStart n hp => exact .inr (.inl ⟨hp, rfl⟩)
  | deriveReceive b hp => exact .inr (.inr (.inl ⟨hp, rfl⟩))
  | deriveFail b hp => exact .inr (.inr (.inr ⟨hp, rfl, rfl⟩))
  | reset => exact absurd hr (Nat.succ_ne_self _)

/-! ### The steps of one context -/

/-- A sequencer step of context c is a change of context c (R203 to R206). -/
theorem tagStep?_updateCtx {c : Nat} (h : tagStep? c s = some t) : ∃ f, t = s.updateCtx c f := by
  unfold tagStep? at h
  repeat' split at h
  all_goals cases h
  · exact ⟨_, rfl⟩
  · exact ⟨_, tagFail_eq s c⟩
  · exact ⟨_, rfl⟩
  · exact ⟨_, tagReceiveLast_eq s c _⟩

/-- A provider step of context c is a change of context c and one more draw (R102). -/
theorem providerStep?_updateCtx {c : Nat} (h : providerStep? (.context c) s = some t) :
    ∃ f, t = { s.updateCtx c f with draws := s.draws + 1 } := by
  unfold providerStep? at h
  repeat' split at h
  all_goals cases h
  exact ⟨_, rfl⟩

theorem updateCtx_id (s : State) (c : Nat) : s.updateCtx c id = s := by
  rw [State.updateCtx, List.modify_id]

/-- An event of context c changes that context and the model's counter of draws, if anything. -/
theorem perform_context {c : Nat} {e : Event}
    (he : e = .sequencer (.context c) ∨ e = .provider (.context c)) (h : perform e s = .next t) :
    ∃ f draws, t = { s.updateCtx c f with draws := draws } ∧
      (e = .sequencer (.context c) → draws = s.draws) := by
  have nothing : s = { s.updateCtx c id with draws := s.draws } := (updateCtx_id s c).symm
  rcases he with rfl | rfl
  · cases hstep : sequencerStep? (.context c) s with
    | none =>
      rw [perform, hstep] at h
      cases h
      exact ⟨id, _, nothing, fun _ => rfl⟩
    | some u =>
      rw [perform, hstep] at h
      cases h
      obtain ⟨f, rfl⟩ := tagStep?_updateCtx hstep
      exact ⟨f, _, rfl, fun _ => rfl⟩
  · cases hstep : providerStep? (.context c) s with
    | none =>
      rw [perform, hstep] at h
      cases h
      exact ⟨id, _, nothing, nofun⟩
    | some u =>
      rw [perform, hstep] at h
      cases h
      obtain ⟨f, rfl⟩ := providerStep?_updateCtx hstep
      exact ⟨f, _, rfl, nofun⟩

end

/-! ### The obligations -/

/-- Settles O47: the three registers read the constant and the two parameters. -/
theorem identificationIsConstant : Obligations.IdentificationIsConstant := by
  intro s t h
  obtain ⟨hn, hm⟩ := step_keeps_parameters h
  exact ⟨rfl, rfl, rfl, congrArg (BitVec.ofNat 32) hn, rfl, hm, hn⟩

/-- Settles O48: a step without a reset is nothing or one effect that is no reset. -/
theorem keyAndSubkeysAreImmutable : Obligations.KeyAndSubkeysAreImmutable := by
  refine ⟨fun s t h hin => ?_, fun _ _ => rfl⟩
  rcases step_split h with ⟨-, -, rfl⟩ | ⟨rest, hreset, -⟩ | ⟨e, u, -, hu, -, he, hr⟩
  · exact Effect.nothing.keeps_key_subkeys rfl
  · exact absurd hreset (hin rest)
  · rw [hu] at he hr
    exact he.keeps_key_subkeys hr

/-- Settles O49: the transitions of the effects, and reset. -/
theorem prepStateTransitions : Obligations.PrepStateTransitions := by
  intro s t h
  rcases step_split h with ⟨-, -, rfl⟩ | ⟨rest, hreset, rfl⟩ | ⟨e, u, -, hu, -, he, hr⟩
  · exact .inl rfl
  · exact .inr (.inr (.inr (.inr ⟨rfl, rest, hreset⟩)))
  · rw [hu] at he hr
    rcases he.pstate_cases hr with h | h | h | h
    · exact .inl h
    · exact .inr (.inl h)
    · exact .inr (.inr (.inl h))
    · exact .inr (.inr (.inr (.inl h)))

/-- Settles O33: such an event is a change of its own context. -/
theorem contextStepsArePrivate : Obligations.ContextStepsArePrivate := by
  intro s t c e he h
  obtain ⟨f, draws, rfl, hdraws⟩ := perform_context he h
  refine ⟨rfl, updateCtx_nctx s c f, fun d hd => ?_, hdraws⟩
  exact (updateCtx_getElem? s c d f).trans (if_neg hd.symm)

end Sys2Proof.Machine
end

section
/-!
What the registers read as and what a write to them does (spec/10_state.md R31, R43 to R55).
-/

namespace Sys2Proof.Machine

section
variable {s : State} {c : Nat} {x : Context}

/-! ### Accesses by offset -/

/-- A 32-bit read of an aligned offset of the register space, by its number. -/
theorem perform_read {addr : Nat} {r : HostReg} (hlt : addr < 0x1000) (h4 : addr % 4 = 0)
    (hr : regAt s.nctx addr = some r) :
    perform (.host { width := .w32, addr := BitVec.ofNat 12 addr, op := .read }) s =
      .next (setReply (.read .ok (readReg r s)) s) := by
  have hn : (BitVec.ofNat 12 addr).toNat = addr :=
    (BitVec.toNat_ofNat ..).trans (Nat.mod_eq_of_lt hlt)
  refine hostAccess_read ?_ rfl
  rw [addressed_eq rfl (by rw [hn]; exact h4), hn, hr]

/-- The value of an existing context's register. -/
theorem ofContext_eq (hx : s.ctxs[c]? = some x) (f : Context → Word) : ofContext s c f = f x := by
  rw [ofContext, hx]

theorem busy_eq (hx : s.ctxs[c]? = some x) : s.busy c = x.busy := by
  rw [State.busy, hx]

theorem lt_nctx (hx : s.ctxs[c]? = some x) : c < s.nctx := (List.getElem?_eq_some_iff.mp hx).1

/-! ### KEY -/

/-- Byte j of a word written to `KEYk` is key byte 4k + j (R31). -/
theorem writeKeyWord_byte (key : Vector Byte 32) {k j : Nat} (v : Word) (hk : k < 8) (hj : j < 4) :
    (writeKeyWord key k v)[4 * k + j]? = some (wordByte v j) := by
  rw [writeKeyWord_getElem? key k v (by omega), if_pos (by omega), show (4 * k + j) % 4 = j by omega]

/-! ### MSGLEN and MSGPTR -/

/-- A write to an unlocked register of an existing context (R48, R78). -/
theorem perform_write_bank {off : Nat} {r : HostReg} {v : Word} (hn : s.nctx ≤ 32)
    (hx : s.ctxs[c]? = some x) (hoff : off < 0x40) (h4 : off % 4 = 0)
    (hr : bankRegAt c off = some r) (hl : writeLocked r s = false) :
    perform (.host { width := .w32, addr := BitVec.ofNat 12 (contextBase c + off), op := .write v }) s =
      onNext (writeReg r v s) (setReply (.write .ok)) := by
  have hc := lt_nctx hx
  unfold contextBase
  exact perform_write (by omega) (by omega) ((regAt_bank hc hoff).trans hr) hl

/-- A read of a register of an existing context (R48, R79). -/
theorem perform_read_bank {off : Nat} {r : HostReg} (hn : s.nctx ≤ 32) (hx : s.ctxs[c]? = some x)
    (hoff : off < 0x40) (h4 : off % 4 = 0) (hr : bankRegAt c off = some r) :
    perform (.host { width := .w32, addr := BitVec.ofNat 12 (contextBase c + off), op := .read }) s =
      .next { s with reply := some (.read .ok (readReg r s)) } := by
  have hc := lt_nctx hx
  unfold contextBase
  exact perform_read (by omega) (by omega) ((regAt_bank hc hoff).trans hr)

/-! ### Read-only and write-only registers -/

/-- A read-only register ignores a write, and is never locked (R43). -/
theorem writeReg_readOnly {r : HostReg} (v : Word)
    (h : r = .id ∨ r = .cfgNctx ∨ r = .cfgMsgcap ∨ r = .rej ∨ r = .pstat ∨ (∃ c, r = .cstat c) ∨
      ∃ c k, r = .tag c k) : writeLocked r s = false ∧ writeReg r v s = .next s := by
  rcases h with rfl | rfl | rfl | rfl | rfl | ⟨c, rfl⟩ | ⟨c, k, rfl⟩ <;> exact ⟨rfl, rfl⟩

/-- A write-only register reads as 0 (R43). -/
theorem readReg_writeOnly {r : HostReg}
    (h : r = .cmd ∨ (∃ k, r = .key k) ∨ (∃ c, r = .msgdata8 c) ∨ ∃ c, r = .msgdata32 c) :
    readReg r s = 0#32 := by
  rcases h with rfl | ⟨k, rfl⟩ | ⟨c, rfl⟩ | ⟨c, rfl⟩ <;> rfl

/-! ### The tag -/

/-- Word k of a Block is its bytes 4k to 4k + 3, the first in bits [31:24] (R15). -/
theorem blockWord_eq_bytes (b : Block) {k : Nat} (hk : k < 4) :
    blockWord b k =
      blockByte b (4 * k) ++ blockByte b (4 * k + 1) ++ blockByte b (4 * k + 2) ++
        blockByte b (4 * k + 3) := by
  unfold blockWord blockByte
  rw [BitVec.extractLsb'_append_extractLsb'_eq_extractLsb' (by omega),
    BitVec.extractLsb'_append_extractLsb'_eq_extractLsb' (by omega),
    BitVec.extractLsb'_append_extractLsb'_eq_extractLsb' (by omega)]
  congr 1
  omega

end

/-! ### The obligations -/

/-- Settles O40: the write reaches the unlocked `KEYk`, and its bytes are those of the word. -/
theorem keyWriteStoresFourBytes : Obligations.KeyWriteStoresFourBytes := by
  intro s k v hp hk
  have hunlocked : writeLocked (.key k) s = false := by simp [writeLocked, hp]
  refine ⟨writeKeyWord s.key k v, ?_, writeKeyWord_byte _ v hk (by decide : 0 < 4),
    writeKeyWord_byte _ v hk (by decide), writeKeyWord_byte _ v hk (by decide),
    writeKeyWord_byte _ v hk (by decide), fun i hi hne => ?_⟩
  · exact perform_write (by omega) (by omega) (regAt_key hk) hunlocked
  · rw [writeKeyWord_getElem? _ k v hi, if_neg hne]

/-- Settles O41: both registers are in the context's bank, unlocked while it is idle. -/
theorem lengthAndPointerWrites : Obligations.LengthAndPointerWrites := by
  intro s c x hn hx
  refine ⟨fun v idle => ⟨?_, ?_⟩, ?_, ?_⟩
  · rw [perform_write_bank hn hx (by decide) (by decide) (r := .msglen c) rfl ((busy_eq hx).trans idle),
      writeReg, updateCtx_eq_set _ hx]
    rfl
  · rw [perform_write_bank hn hx (by decide) (by decide) (r := .msgptr c) rfl ((busy_eq hx).trans idle),
      writeReg, updateCtx_eq_set _ hx]
    rfl
  · rw [perform_read_bank hn hx (by decide) (by decide) (r := .msglen c) rfl]
    simp only [readReg, ofContext_eq hx]
  · rw [perform_read_bank hn hx (by decide) (by decide) (r := .msgptr c) rfl]
    simp only [readReg, ofContext_eq hx]

/-- Settles O44: an access that reaches such a register ignores the write and reads 0. -/
theorem readOnlyAndWriteOnly : Obligations.ReadOnlyAndWriteOnly := by
  intro s addr r h4 hr
  have hreach (op : AccessOp) : addressed { width := .w32, addr := addr, op := op } s = some r :=
    (addressed_eq rfl h4).trans hr
  refine ⟨fun v hro => ?_, fun hwo => ?_⟩
  · obtain ⟨hl, hw⟩ := writeReg_readOnly (s := s) v hro
    rw [perform, hostAccess_write (hreach _) rfl hl, hw]
    rfl
  · rw [perform, hostAccess_read (hreach _) rfl, readReg_writeOnly hwo]
    rfl

/-- Settles O45: the selector of R55, its word byte by byte. -/
theorem tagReadsAreGated : Obligations.TagReadsAreGated := by
  intro s c x k hx hk
  rw [← blockWord_eq_bytes x.acc hk, readReg, ofContext_eq hx, tagWord]
  exact if_congr (by simp [tagValid]) rfl rfl

end Sys2Proof.Machine
end

section
/-!
The fields of the status words REJ, PSTAT and CSTAT (spec/10_state.md R46, R47, R51).
-/

namespace Sys2Proof.Machine

/-! ### Fields of a zero-extended word -/

section
variable {n m w start len : Nat}

/-- The whole value stands at the bottom of its zero extension. -/
theorem zext_extract_self (a : BitVec n) (h : n ≤ w) : (a.setWidth w).extractLsb' 0 n = a := by
  rw [BitVec.extractLsb'_setWidth_of_le (by omega), BitVec.extractLsb'_eq_self]

/-- Above the value its zero extension has zeros. -/
theorem zext_extract_beyond (a : BitVec n) (h : n ≤ start) :
    (a.setWidth w).extractLsb' start len = 0#len := by
  apply BitVec.eq_of_getLsbD_eq
  intro i hi
  rw [BitVec.getLsbD_extractLsb', BitVec.getLsbD_setWidth, BitVec.getLsbD_of_ge a _ (by omega)]
  simp

/-- The least significant part of a zero-extended word. -/
theorem zext_extract_low (hi : BitVec n) (lo : BitVec m) (h : m ≤ w) :
    ((hi ++ lo).setWidth w).extractLsb' 0 m = lo := by
  rw [BitVec.extractLsb'_setWidth_of_le (by omega), BitVec.extractLsb'_append_eq_right]

/-- A field above the least significant part is a field of the rest. -/
theorem zext_extract_above (start : Nat) (hi : BitVec n) (lo : BitVec m) (h : m + start + len ≤ w) :
    ((hi ++ lo).setWidth w).extractLsb' (m + start) len = (hi.setWidth w).extractLsb' start len := by
  rw [BitVec.extractLsb'_setWidth_of_le h, BitVec.extractLsb'_setWidth_of_le (by omega),
    BitVec.extractLsb'_append_eq_of_le (by omega), Nat.add_sub_cancel_left]

end

/-! ### The words -/

section
variable (s : State) (x : Context)

theorem rejWord_fields :
    (rejWord s).extractLsb' 0 4 = rejectionCode s.rej ∧ (rejWord s).extractLsb' 4 28 = 0#28 :=
  ⟨zext_extract_self _ (by decide), zext_extract_beyond _ (by decide)⟩

theorem pstatWord_fields :
    (pstatWord s).extractLsb' 0 2 = prepCode s.pstate ∧ (pstatWord s).extractLsb' 2 2 = 0#2 ∧
    (pstatWord s).extractLsb' 4 4 = errorCode s.perr ∧ (pstatWord s).extractLsb' 8 8 = s.keylen ∧
    (pstatWord s).extractLsb' 16 16 = 0#16 := by
  unfold pstatWord
  refine ⟨zext_extract_low _ _ (by decide), ?_, ?_, ?_, zext_extract_beyond _ (by decide)⟩
  · rw [zext_extract_above 0 _ _ (by decide), zext_extract_low _ _ (by decide)]
  · rw [zext_extract_above 2 _ _ (by decide), zext_extract_above 0 _ _ (by decide),
      zext_extract_low _ _ (by decide)]
  · rw [zext_extract_above 6 _ _ (by decide), zext_extract_above 4 _ _ (by decide),
      zext_extract_above 0 _ _ (by decide), zext_extract_self _ (by decide)]

theorem cstatWord_fields :
    (cstatWord x).getLsbD 0 = x.busy ∧ (cstatWord x).getLsbD 1 = x.done ∧
    (cstatWord x).extractLsb' 2 2 = 0#2 ∧ (cstatWord x).extractLsb' 4 4 = errorCode x.cerr ∧
    (cstatWord x).extractLsb' 8 24 = 0#24 := by
  unfold cstatWord
  refine ⟨?_, ?_, ?_, ?_, zext_extract_beyond _ (by decide)⟩
  · rw [BitVec.getLsbD_setWidth, BitVec.getLsbD_append]
    simp
  · rw [BitVec.getLsbD_setWidth, BitVec.getLsbD_append, BitVec.getLsbD_append]
    simp
  · rw [zext_extract_above 1 _ _ (by decide), zext_extract_above 0 _ _ (by decide),
      zext_extract_low _ _ (by decide)]
  · rw [zext_extract_above 3 _ _ (by decide), zext_extract_above 2 _ _ (by decide),
      zext_extract_above 0 _ _ (by decide), zext_extract_self _ (by decide)]

end

/-- Settles O46: the fields of the three words, and the codes as they are defined. -/
theorem statusWordFields : Obligations.StatusWordFields := by
  refine ⟨rejWord_fields, pstatWord_fields, fun s c x hx => ?_, rfl, rfl, rfl, rfl, rfl, rfl, rfl,
    rfl, rfl, rfl, rfl, rfl, rfl, rfl, rfl⟩
  rw [readReg, ofContext_eq hx]
  exact cstatWord_fields x

end Sys2Proof.Machine
end

section
/-!
Reset (spec/10_state.md R62, spec/70_reset_and_hazards.md R290 to R293): the values after it, that
nothing happens until the host does something, and that the invariants of R63 hold.
-/

namespace Sys2Proof.Machine

section
variable {n : Nat} {cap : Word} {r : Nat}

/-! ### Quiet -/

theorem afterReset_quiescent (n : Nat) (cap : Word) (r : Nat) :
    (State.afterReset n cap r).quiescent := by
  refine ⟨nofun, fun x hx => ?_⟩
  obtain ⟨cv, rfl⟩ := mem_afterReset hx
  rfl

/-- No session has a beat to send, to answer or to take after reset (R291). -/
theorem afterReset_not_enabled (x : Session) :
    sequencerStep? x (State.afterReset n cap r) = none ∧
      providerStep? x (State.afterReset n cap r) = none := by
  cases x with
  | derivation => exact ⟨rfl, rfl⟩
  | context c =>
    cases hc : (State.afterReset n cap r).ctxs[c]? with
    | none => simp [sequencerStep?, tagStep?, providerStep?, State.port?, hc]
    | some y =>
      obtain ⟨-, rfl⟩ := afterReset_getElem? hc
      simp [sequencerStep?, tagStep?, providerStep?, State.port?, hc, Context.afterReset]

theorem afterReset_enabledEvents (n : Nat) (cap : Word) (r : Nat) :
    enabledEvents (State.afterReset n cap r) = [] := by
  refine List.filter_eq_nil_iff.mpr fun e he => ?_
  obtain ⟨x, -, hx⟩ := List.mem_flatMap.mp he
  obtain ⟨hseq, hprov⟩ := afterReset_not_enabled (n := n) (cap := cap) (r := r) x
  rcases List.mem_pair.mp hx with rfl | rfl
  · simp [enabled, hseq]
  · simp [enabled, hprov]

/-- Without input a core after reset stays as it is (R291, R311). -/
theorem step_afterReset (n : Nat) (cap : Word) (r : Nat) :
    step (State.afterReset n cap r) = .next (State.afterReset n cap r) := by
  obtain ⟨t, ht, hcases⟩ := step_effect (State.afterReset n cap r)
  rcases hcases with ⟨-, -, rfl⟩ | ⟨e, u, hu, -, -⟩
  · exact ht
  · rcases nextEvent_event hu with ⟨rest, hin, -⟩ | ⟨-, hmem, -⟩
    · exact nomatch hin
    · rw [afterReset_enabledEvents] at hmem
      exact nomatch hmem

/-! ### The invariants -/

theorem afterReset_subkeyInv (n : Nat) (cap : Word) (r : Nat) :
    (State.afterReset n cap r).SubkeyInv := .of_no_beat (.inl rfl) rfl

/-- With no context computing there is no chain to keep. -/
theorem chainsInv_of_idle {s : State} (h : ∀ x ∈ s.ctxs, x.busy = false) : s.ChainsInv :=
  fun _ x hx hb => by cases hb.symm.trans (h x (List.mem_of_getElem? hx))

theorem afterReset_chainsInv (n : Nat) (cap : Word) (r : Nat) :
    (State.afterReset n cap r).ChainsInv := chainsInv_of_idle (afterReset_quiescent n cap r).2

theorem resetStep_subkeyInv (s : State) : (resetStep s).SubkeyInv := .of_no_beat (.inl rfl) rfl

theorem resetStep_chainsInv (s : State) : (resetStep s).ChainsInv :=
  chainsInv_of_idle (afterReset_quiescent s.nctx s.msgcap (s.resets + 1)).2

end

/-! ### The obligations -/

/-- Settles O52: reset writes the values of R62 into every element. -/
theorem resetValues : Obligations.ResetValues := by
  intro s
  refine ⟨resetStep s, rfl, rfl, rfl, rfl, rfl, rfl, rfl, rfl, rfl, rfl, resetStep_nctx s, rfl,
    fun c x hx => ?_⟩
  obtain ⟨-, rfl⟩ := afterReset_getElem? (cap := s.msgcap) hx
  exact ⟨rfl, rfl, rfl, rfl, rfl, rfl, rfl, rfl, rfl, rfl, fun a => messageByte_of_unwritten rfl⟩

/-- Settles O53: the reset state is one of those after reset. -/
theorem resetStateIsQuiet : Obligations.ResetStateIsQuiet := by
  refine ⟨rfl, rfl, rfl, rfl, rfl, rfl, rfl, rfl, rfl, fun x hx => ?_, afterReset_quiescent _ _ _,
    step_afterReset _ _ _⟩
  obtain ⟨cv, rfl⟩ := mem_afterReset hx
  exact ⟨rfl, rfl, rfl, rfl, rfl, rfl, rfl, rfl, rfl, rfl⟩

/-- Settles O54: after the reset event, after power-on, and at the model's reset state. -/
theorem invariantsHoldAtReset : Obligations.InvariantsHoldAtReset := by
  refine ⟨fun s h1 h32 hcap => ⟨rfl, resetStep_inv h1 h32 hcap, resetStep_subkeyInv s,
      resetStep_chainsInv s⟩,
    fun n cap r h1 h32 hcap => ⟨State.afterReset_inv h1 h32 hcap r, afterReset_subkeyInv n cap r,
      afterReset_chainsInv n cap r⟩,
    State.afterReset_inv (by decide) (by decide) (by decide) 0, afterReset_subkeyInv _ _ _,
    afterReset_chainsInv _ _ _⟩

end Sys2Proof.Machine
end

section
/-!
The CBC chain of every session (spec/20_memory.md R97, R102, R103, spec/43_tag_engine.md R201 to R204):
each change of a computing context keeps its session a chain, and so does every effect of a step (O31).
-/

namespace Sys2Proof.Machine

section
variable {s t : State} {c : Nat} {x y : Context} {f : Context → Context}

/-- The invariant of a context of the core. -/
theorem State.Inv.context (hs : s.Inv) (hx : s.ctxs[c]? = some x) : x.Inv s.msgcap :=
  hs.eachContext x (List.mem_of_getElem? hx)

/-! ### One session -/

/-- The chain's next Block is `E` of the padded Block and the Block before it, `Z16` before the first
(R103). -/
theorem chain_eq_cipher (s : State) (c : Nat) (x : Context) (i : Nat) :
    s.chain c x i =
      Config.cipher s.keylen s.keyBytes
        (s.paddedBlock c x i ^^^ (if i = 0 then zeroBlock else s.chain c x (i - 1))) := by
  cases i with
  | zero => exact congrArg _ BitVec.xor_zero.symm
  | succ i => rfl

/-- The provider's Block for the beat in flight is the next one of the chain (R102, R103). -/
theorem State.ChainInv.providerCipher_eq {q : Request} (h : s.ChainInv c x)
    (hi : x.port.infl = .request q) : providerCipher x.port.cv q = s.chain c x x.rcvd.toNat := by
  have hprev : (if x.rcvd.toNat = 0 then zeroBlock else x.port.cv) =
      if x.rcvd.toNat = 0 then zeroBlock else s.chain c x (x.rcvd.toNat - 1) := by
    split_ifs with h0
    · rfl
    · exact h.chained (by simp [hi]) (Nat.pos_of_ne_zero h0)
  rw [h.asked q hi, chain_eq_cipher, ← hprev, providerCipher]
  simp only [decide_eq_true_eq]

/-- Everything that happens to a computing context, while it goes on computing, keeps its session a
chain (R203, R102, R204). -/
theorem State.ChainInv.of_busyChange {n : Nat} (h : s.ChainInv c x)
    (hc : BusyChange (s.tagRequest c x) n x y) (hy : y.busy = true) : s.ChainInv c y := by
  cases hc with
  | unchanged => exact h
  | sent hi he hn =>
    refine ⟨h.fresh, h.received, fun q hq => ?_, fun _ => h.chained (by simp [hi]), nofun⟩
    rw [← Slot.request.inj hq, State.tagRequest, he]
    rfl
  | answered q hi =>
    have hcipher := h.providerCipher_eq hi
    cases hfail : Config.providerFails n with
    | true =>
      have ha : providerAnswer n x.port q =
          { x.port with infl := .response true (Config.failedBlock n) } := if_pos hfail
      rw [ha]
      exact ⟨h.fresh, h.received, nofun, fun hno => absurd rfl (hno _ _), nofun⟩
    | false =>
      have ha : providerAnswer n x.port q =
          { infl := .response false (providerCipher x.port.cv q),
            cv := providerCipher x.port.cv q } := if_neg (by simp [hfail])
      rw [ha, hcipher]
      refine ⟨h.fresh, h.received, nofun, fun hno => absurd rfl (hno _ _), fun b hb => ?_⟩
      cases hb
      exact ⟨rfl, rfl⟩
  | received b hi hn =>
    obtain ⟨hblock, hcv⟩ := h.answered b hi
    have hprev : (x.rcvd + 1#32).toNat - 1 = x.rcvd.toNat := by
      rw [add_one_toNat (by omega : _ < x.nblk.toNat), Nat.add_sub_cancel]
    have hpos : (x.rcvd + 1#32).toNat ≠ 0 := by
      rw [add_one_toNat (by omega : _ < x.nblk.toNat)]
      exact Nat.succ_ne_zero _
    refine ⟨fun h0 => absurd h0 hpos, fun _ => ?_, nofun, fun _ _ => ?_, nofun⟩
    · dsimp only
      rw [hprev]
      exact hblock
    · dsimp only
      rw [hprev]
      exact hcv
  | completed | failed | reset => cases hy

/-- A computation that starts has received nothing and has nothing in flight (R202, R230). -/
theorem State.ChainInv.of_fresh (hr : x.rcvd.toNat = 0) (ha : x.acc = zeroBlock)
    (hi : x.port.infl = .empty) : s.ChainInv c x where
  fresh := fun _ => ha
  received := fun h => absurd hr h.ne'
  asked := fun _ h => nomatch hi.symm.trans h
  chained := fun _ h => absurd hr h.ne'
  answered := fun _ h => nomatch hi.symm.trans h

/-! ### All sessions -/

/-- What the chains do not see: everything but the key, the subkeys and the contexts. -/
theorem State.ChainsInv.frame (h : s.ChainsInv) {pstate : PrepState} {perr : ErrorCode}
    {rej : Rejection} {dsent : Bool} {drv : Port} {input : List Event} {reply : Option Reply}
    {draws picks : Nat} :
    State.ChainsInv
      { s with
        pstate := pstate, perr := perr, rej := rej, dsent := dsent, drv := drv, input := input,
        reply := reply, draws := draws, picks := picks } := by
  intro c x hx hb
  have hc := h c x hx hb
  exact ⟨hc.fresh, hc.received, hc.asked, hc.chained, hc.answered⟩

/-- A change of one context keeps the chains if it leaves the context idle or its session a chain. -/
theorem State.ChainsInv.updateCtx (h : s.ChainsInv) (hx : s.ctxs[c]? = some x)
    (hf : (f x).busy = true → s.ChainInv c (f x)) : (s.updateCtx c f).ChainsInv := by
  intro d y hy hb
  have hold : s.ChainInv d y := by
    rw [updateCtx_getElem?] at hy
    split_ifs at hy with hcd
    · subst hcd
      rw [hx] at hy
      cases hy
      exact hf hb
    · exact h d y hy hb
  exact ⟨hold.fresh, hold.received, hold.asked, hold.chained, hold.answered⟩

/-- A step of a computing context keeps the chains. -/
theorem State.ChainsInv.busyStep (h : s.ChainsInv) (hx : s.ctxs[c]? = some x)
    (hb : x.busy = true) (hc : BusyChange (s.tagRequest c x) s.draws x (f x)) :
    (s.updateCtx c f).ChainsInv := h.updateCtx hx ((h c x hx hb).of_busyChange hc)

/-- A change that leaves its context idle keeps the chains. -/
theorem State.ChainsInv.idleStep (h : s.ChainsInv) (hx : s.ctxs[c]? = some x)
    (idle : (f x).busy = false) : (s.updateCtx c f).ChainsInv :=
  h.updateCtx hx fun hb => by cases idle.symm.trans hb

/-- Every effect keeps the chains. Those that touch the key or the subkeys happen while no context
computes (R39, R63 b). -/
theorem State.ChainsInv.of_effect (h : s.ChainsInv) (hs : s.Inv) (he : Effect s t) : t.ChainsInv := by
  have idle (hp : s.pstate = .unprepared ∨ s.pstate = .preparing) : ∀ x ∈ s.ctxs, x.busy = false :=
    (hs.noSubkeys hp).2.2
  cases he with
  | nothing => exact h
  | replied | rejected | prepareIllegal | deriveSend | providerDerivation => exact h.frame
  | prepareStart n hp | keyWrite k v hp => exact chainsInv_of_idle (idle (.inl hp))
  | deriveReceive b hp | deriveFail b hp => exact chainsInv_of_idle (idle (.inr hp))
  | macStart c x hp hx hidle =>
    have hempty : x.port.infl = .empty := not_not.mp fun hi => by
      cases hidle.symm.trans ((hs.context hx).inFlight hi).1
    have ha : ({ s with rej := .accepted } : State).ChainsInv := h.frame
    rw [macStart_eq]
    exact (ha.updateCtx hx fun _ => .of_fresh rfl rfl hempty).frame
  | msglenWrite c x v hx hidle | msgptrWrite c x v hx hidle | data8 c x v hx hidle
  | data32 c x v hx hidle => exact (h.idleStep hx hidle).frame
  | tagSend c x hx hb hi heq hn => exact h.busyStep hx hb (.sent hi heq hn)
  | tagReceive c x b hx hb hi hn => exact h.busyStep hx hb (.received b hi hn)
  | tagReceiveLast c x b hx =>
    rw [tagReceiveLast_eq]
    exact h.idleStep hx rfl
  | tagFail c x b hx =>
    rw [tagFail_eq]
    exact h.idleStep hx rfl
  | providerContext c x q hx hi =>
    have hb := ((hs.context hx).inFlight (by simp [hi])).1
    exact (h.busyStep hx hb (.answered q hi)).frame
  | reset => exact resetStep_chainsInv s

end

/-- Settles O31: the invariant of R63 and the chains are kept together by every step. -/
theorem sessionsStayChains : Obligations.SessionsStayChains := by
  intro s t hs hc hstep
  have hboth : t.Inv ∧ t.ChainsInv :=
    step_keeps (P := fun s => s.Inv ∧ s.ChainsInv)
      (fun _ _ _ ⟨h, hc⟩ => ⟨h.frame .., hc.frame⟩)
      (fun _ _ ⟨h, hc⟩ he => ⟨h.of_effect he, hc.of_effect h he⟩) ⟨hs, hc⟩ hstep
  exact hboth.2

end Sys2Proof.Machine
end

section
/-!
The work left (spec/20_memory.md R105, spec/43_tag_engine.md R211, spec/70_reset_and_hazards.md R310,
R311): while the core is not quiescent some sequencer or provider step is enabled, and every such step
lessens the work, so that without input the core becomes quiescent (O58).
-/

namespace Sys2Proof.Machine

section
variable {s t : State} {c : Nat} {x y : Context} {f : Context → Context}

/-! ### The work of one context -/

/-- A computing context has a Block to receive, so its work is three steps for every later Block and
what the beat in flight still takes (R203, R211). -/
theorem contextWork_eq {cap : Word} (hx : x.Inv cap) (hb : x.busy = true) :
    contextWork x = 3 * (x.nblk.toNat - x.rcvd.toNat - 1) + slotWork x.port.infl ∧
      x.rcvd.toNat < x.nblk.toNat := by
  obtain ⟨hlt, -⟩ := hx.running hb
  rw [contextWork, if_pos hb]
  omega

/-- Whenever a beat of a computing context moves, its work gets less (R203 to R206, R102). -/
theorem BusyChange.contextWork_lt {cap : Word} {q : Request} {n : Nat} (hc : BusyChange q n x y)
    (hx : x.Inv cap) (hb : x.busy = true) (hmoved : y.port.infl ≠ x.port.infl) :
    contextWork y < contextWork x := by
  obtain ⟨hwork, hlt⟩ := contextWork_eq hx hb
  rw [hwork]
  cases hc with
  | unchanged => exact absurd rfl hmoved
  | sent hi =>
    simp only [contextWork, hb, hi, setSlot_infl, slotWork, if_true]
    omega
  | answered p hi =>
    obtain ⟨err, b, ha⟩ := providerAnswer_infl n x.port p
    simp only [contextWork, hb, hi, ha, slotWork, if_true]
    omega
  | received b hi hn =>
    simp only [contextWork, hb, hi, setSlot_infl, slotWork, if_true,
      add_one_toNat (by omega : _ < x.nblk.toNat)]
    omega
  | completed b hi | failed b hi => simp [contextWork, hi, slotWork]
  | reset cv => cases hi : x.port.infl <;> simp [contextWork, Context.afterReset, slotWork]

/-! ### The work of the core -/

/-- Less work in one context is less work in all. -/
theorem sum_contextWork_modify_lt {l : List Context} (hx : l[c]? = some x)
    (hlt : contextWork (f x) < contextWork x) :
    ((l.modify c f).map contextWork).sum < (l.map contextWork).sum := by
  induction l generalizing c with
  | nil => cases hx
  | cons z l ih =>
    cases c with
    | zero =>
      cases hx
      simpa using hlt
    | succ c => simpa using ih hx

theorem updateCtx_work_lt (hx : s.ctxs[c]? = some x) (hlt : contextWork (f x) < contextWork x) :
    (s.updateCtx c f).work < s.work :=
  Nat.add_lt_add_left (sum_contextWork_modify_lt hx hlt) _

theorem slotWork_pos (slot : Slot) : 0 < slotWork slot := by
  cases slot <;> simp [slotWork]

/-- A derivation's work is less when its beat has moved, and gone when the derivation has ended. -/
theorem work_lt_of_derivation (hp : s.pstate = .preparing) (hctxs : t.ctxs = s.ctxs)
    (hlt : t.pstate = .preparing → slotWork t.drv.infl < slotWork s.drv.infl) : t.work < s.work := by
  unfold State.work
  rw [hctxs, if_pos hp]
  refine Nat.add_lt_add_right ?_ _
  split_ifs with ht
  · exact hlt ht
  · exact slotWork_pos _

/-! ### Sequencer and provider steps lessen the work -/

/-- A step of the derivation moves its beat or ends it (R171, R174, R175). -/
theorem deriveStep?_work_lt (h : deriveStep? s = some t) : t.work < s.work ∧ t.input = s.input := by
  unfold deriveStep? at h
  split_ifs at h with hp
  split at h <;> cases h
  · rename_i hi
    exact ⟨work_lt_of_derivation hp rfl fun _ => by simp [deriveSend, hi, slotWork], rfl⟩
  · exact ⟨work_lt_of_derivation hp rfl nofun, rfl⟩
  · exact ⟨work_lt_of_derivation hp rfl nofun, rfl⟩

/-- A sequencer step of a context is the movement of a beat of a computing context (R203 to R206). -/
theorem tagStep?_busyChange (h : tagStep? c s = some t) :
    ∃ x f, s.ctxs[c]? = some x ∧ x.busy = true ∧ t = s.updateCtx c f ∧
      BusyChange (s.tagRequest c x) s.draws x (f x) ∧ (f x).port.infl ≠ x.port.infl := by
  unfold tagStep? at h
  cases hx : s.ctxs[c]? with
  | none => simp [hx] at h
  | some x =>
    simp only [hx] at h
    cases hb : x.busy
    · simp [hb] at h
    rw [hb, if_pos rfl] at h
    split at h
    · rename_i hi
      split_ifs at h with hn
      cases h
      exact ⟨x, _, rfl, hb, rfl, .sent hi hn.1 hn.2, by simp [hi]⟩
    · cases h
    · rename_i b hi
      cases h
      exact ⟨x, _, rfl, hb, tagFail_eq s c, .failed b hi, by simp [hi]⟩
    · rename_i b hi
      split_ifs at h with hlt hlast <;> cases h
      · exact ⟨x, _, rfl, hb, rfl, .received b hi hlt, by simp [hi]⟩
      · exact ⟨x, _, rfl, hb, tagReceiveLast_eq s c b, .completed b hi hlast, by simp [hi]⟩

theorem tagStep?_work_lt (hs : s.Inv) (h : tagStep? c s = some t) :
    t.work < s.work ∧ t.input = s.input := by
  obtain ⟨x, f, hx, hb, rfl, hc, hmoved⟩ := tagStep?_busyChange h
  exact ⟨updateCtx_work_lt hx
    (hc.contextWork_lt (hs.context hx) hb hmoved), rfl⟩

/-- A sequencer step lessens the work (R211). -/
theorem sequencerStep?_work_lt {x : Session} (hs : s.Inv) (h : sequencerStep? x s = some t) :
    t.work < s.work ∧ t.input = s.input := by
  cases x with
  | derivation => exact deriveStep?_work_lt h
  | context c => exact tagStep?_work_lt hs h

/-- A provider's step is the answer to a request beat in flight (R102). -/
theorem providerStep?_eq_some_iff {x : Session} :
    providerStep? x s = some t ↔ ∃ p q, s.port? x = some p ∧ p.infl = .request q ∧
      t = { s.setPort x (providerAnswer s.draws p q) with draws := s.draws + 1 } := by
  constructor
  · intro h
    unfold providerStep? at h
    split at h
    · rename_i p hport
      split at h
      · rename_i q hi
        cases h
        exact ⟨p, q, hport, hi, rfl⟩
      · cases h
    · cases h
  · rintro ⟨p, q, hport, hi, rfl⟩
    simp only [providerStep?, hport, hi]

/-- A provider's step lessens the work (R102, R105). -/
theorem providerStep?_work_lt {x : Session} (hs : s.Inv) (h : providerStep? x s = some t) :
    t.work < s.work ∧ t.input = s.input := by
  obtain ⟨p, q, hport, hi, rfl⟩ := providerStep?_eq_some_iff.mp h
  refine ⟨?_, setPort_input ..⟩
  cases x with
  | derivation =>
    cases hport
    obtain ⟨err, b, ha⟩ := providerAnswer_infl s.draws s.drv q
    obtain ⟨hp, -⟩ := hs.derivation (by simp [hi])
    exact work_lt_of_derivation hp rfl fun _ => by simp [hi, ha, slotWork]
  | context c =>
    obtain ⟨x, hx, rfl⟩ := Option.map_eq_some_iff.mp hport
    have hinv := hs.context hx
    obtain ⟨err, b, ha⟩ := providerAnswer_infl s.draws x.port q
    have hc : BusyChange q s.draws x { x with port := providerAnswer s.draws x.port q } :=
      .answered q hi
    exact updateCtx_work_lt hx
      (hc.contextWork_lt hinv (hinv.inFlight (by simp [hi])).1 (by simp [hi, ha]))

/-! ### Some step is enabled -/

theorem derivation_enabled (hs : s.Inv) (hp : s.pstate = .preparing) :
    (sequencerStep? .derivation s).isSome ∨ (providerStep? .derivation s).isSome := by
  cases hi : s.drv.infl with
  | empty =>
    have hd : s.dsent = false := Bool.eq_false_iff.mpr fun hd => hs.awaiting hp hd hi
    exact .inl (by simp [sequencerStep?, deriveStep?, hp, hd, hi])
  | request q => exact .inr (by simp [providerStep?, State.port?, hi])
  | response err b =>
    obtain ⟨-, hd⟩ := hs.derivation (by simp [hi])
    exact .inl (by cases err <;> simp [sequencerStep?, deriveStep?, hp, hd, hi])

theorem context_enabled (hs : s.Inv) (hx : s.ctxs[c]? = some x) (hb : x.busy = true) :
    (sequencerStep? (.context c) s).isSome ∨ (providerStep? (.context c) s).isSome := by
  obtain ⟨hlt, hsent⟩ := (hs.context hx).running hb
  cases hi : x.port.infl with
  | empty =>
    have hn : x.rcvd < x.nblk := hlt
    exact .inl (by simp [sequencerStep?, tagStep?, hx, hb, hi, hsent hi, hn])
  | request q => exact .inr (by simp [providerStep?, State.port?, hx, hi])
  | response err b =>
    refine .inl ?_
    cases err with
    | true => simp [sequencerStep?, tagStep?, hx, hb, hi]
    | false =>
      have hle : x.rcvd.toNat + 1 ≤ x.nblk.toNat := hlt
      rcases Nat.lt_or_eq_of_le hle with hn | hn <;>
        simp [sequencerStep?, tagStep?, hx, hb, hi, hn]

/-- While the core is not quiescent some sequencer or provider step is enabled (R311). -/
theorem enabledEvents_ne_nil (hs : s.Inv) (hq : ¬ s.quiescent) : enabledEvents s ≠ [] := by
  have ne {x : Session} (hx : x = .derivation ∨ ∃ c, c < s.nctx ∧ x = .context c)
      (he : (sequencerStep? x s).isSome ∨ (providerStep? x s).isSome) : enabledEvents s ≠ [] := by
    rcases he with he | he
    · exact List.ne_nil_of_mem ((mem_enabledEvents hx).1 he)
    · exact List.ne_nil_of_mem ((mem_enabledEvents hx).2 he)
  by_cases hp : s.pstate = .preparing
  · exact ne (.inl rfl) (derivation_enabled hs hp)
  · obtain ⟨x, hmem, hb⟩ : ∃ x ∈ s.ctxs, x.busy = true := by
      by_contra hno
      exact hq ⟨hp, fun x hx => Bool.eq_false_iff.mpr fun hb => hno ⟨x, hx, hb⟩⟩
    obtain ⟨c, hx⟩ := List.mem_iff_getElem?.mp hmem
    exact ne (.inr ⟨c, lt_nctx hx, rfl⟩) (context_enabled hs hx hb)

/-- Whether a step is enabled does not depend on the schedule (R17). -/
theorem enabled_schedule (s : State) (input : List Event) (picks : Nat) (e : Event) :
    enabled { s with input := input, picks := picks } e = enabled s e := by
  cases e with
  | host | reset => rfl
  | sequencer x =>
    cases x with
    | derivation =>
      simp only [enabled, sequencerStep?, deriveStep?]
      split_ifs
      · cases s.drv.infl with
        | empty | request => cases s.dsent <;> rfl
        | response err b => cases s.dsent <;> cases err <;> rfl
      · rfl
    | context c =>
      simp only [enabled, sequencerStep?, tagStep?]
      cases s.ctxs[c]? with
      | none => rfl
      | some x =>
        dsimp only
        cases x.port.infl with
        | empty | request => split_ifs <;> rfl
        | response err b => cases err <;> split_ifs <;> rfl
  | provider x =>
    simp only [enabled, providerStep?]
    cases x with
    | derivation =>
      simp only [State.port?]
      cases s.drv.infl <;> rfl
    | context c =>
      simp only [State.port?]
      cases s.ctxs[c]? with
      | none => rfl
      | some x =>
        simp only [Option.map_some]
        cases x.port.infl <;> rfl

/-- An enabled event lessens the work. -/
theorem perform_work_lt {e : Event} (hs : s.Inv) (he : enabled s e = true)
    (h : perform e s = .next t) : t.work < s.work ∧ t.input = s.input := by
  cases e with
  | host | reset => cases he
  | sequencer x =>
    obtain ⟨u, hu⟩ := Option.isSome_iff_exists.mp he
    rw [perform, hu] at h
    cases h
    exact sequencerStep?_work_lt hs hu
  | provider x =>
    obtain ⟨u, hu⟩ := Option.isSome_iff_exists.mp he
    rw [perform, hu] at h
    cases h
    exact providerStep?_work_lt hs hu

/-- Without input a step of a core that is not quiescent lessens the work (R105). -/
theorem step_work_lt (hs : s.Inv) (hin : s.input = []) (hq : ¬ s.quiescent)
    (h : step s = .next t) : t.work < s.work ∧ t.input = [] := by
  obtain ⟨t', ht', hcases⟩ := step_effect s
  cases h.symm.trans ht'
  rcases hcases with ⟨-, hnone, -⟩ | ⟨e, u, hu, hp, -⟩
  · exact absurd hnone (enabledEvents_ne_nil hs hq)
  · rcases nextEvent_event hu with ⟨rest, hrest, -⟩ | ⟨-, hmem, huin⟩
    · cases hin.symm.trans hrest
    · rw [nextEvent_state hu] at hp
      have he := (enabled_schedule s u.input u.picks e).trans (enabled_of_mem hmem)
      obtain ⟨hlt, hinput⟩ := perform_work_lt (hs.frame ..) he hp
      exact ⟨hlt, hinput.trans huin⟩

/-- A run goes on from the state after its first step. -/
theorem run_succ (h : step s = .next t) (k : Nat) :
    Sys2Proof.core.run (k + 1) s = Sys2Proof.core.run k t := by
  simp only [Host.Core.run, core, h]

end

/-- Settles O58: by induction on the work, which every step lessens until the core is quiescent. -/
theorem workEndsInBoundedSteps : Obligations.WorkEndsInBoundedSteps := by
  intro s hs hin
  induction hw : s.work using Nat.strong_induction_on generalizing s with
  | _ w ih =>
    by_cases hq : s.quiescent
    · exact ⟨0, s, Nat.zero_le _, rfl, hq⟩
    · obtain ⟨u, hu, -⟩ := step_effect s
      obtain ⟨hlt, huin⟩ := step_work_lt hs hin hq hu
      have hsu := invariantKeptByEveryStep s u hs hu
      obtain ⟨k, t, hk, hrun, ht⟩ := ih u.work (hw ▸ hlt) u hsu huin rfl
      refine ⟨k + 1, t, by omega, (run_succ hu k).trans hrun, ht⟩

end Sys2Proof.Machine
end

section
/-!
Only the message is read (spec/20_memory.md R87, spec/42_padding.md R186): the padded Blocks and the tag
are functions of the bytes below the length (O12).
-/

namespace Sys2Proof.Machine

section
variable {len : Nat} {m₁ m₂ : Nat → Byte}

/-- A Block depends on sixteen values of the function it is made of. -/
theorem blockOfBytes_congr {f g : Nat → Byte} (h : ∀ j, j < 16 → f j = g j) :
    blockOfBytes f = blockOfBytes g :=
  block_ext fun j hj => by rw [blockByte_blockOfBytes f hj, blockByte_blockOfBytes g hj, h j hj]

/-- The last Block reads the message bytes that are left, and no others (R186). -/
theorem lastBlock_congr (h : ∀ a, a < len → m₁ a = m₂ a) : lastBlock len m₁ = lastBlock len m₂ := by
  refine blockOfBytes_congr fun j _ => ?_
  have hlast := lastBytes_add len
  split_ifs with hj
  · exact h _ (by omega)
  · rfl
  · rfl

/-- The Blocks before the last are whole Blocks of the message (R182). -/
theorem lt_of_block_before_last {i j : Nat} (hi : i + 1 < nblk len) (hj : j < 16) : 16 * i + j < len := by
  have hlast := lastBytes_add len
  omega

theorem paddedBlock_congr (h : ∀ a, a < len → m₁ a = m₂ a) (k1 k2 : Block) (i : Nat) :
    paddedBlock len m₁ k1 k2 i = paddedBlock len m₂ k1 k2 i := by
  unfold paddedBlock
  split_ifs with hi
  · exact blockOfBytes_congr fun j hj => h _ (lt_of_block_before_last hi hj)
  · rw [lastBlock_congr h]

end

/-- Settles O12: padded Block by padded Block, and the tag is a function of them. -/
theorem onlyTheMessageIsRead : Obligations.OnlyTheMessageIsRead := by
  intro len m₁ m₂ h keylen key k1 k2
  refine ⟨fun i _ => paddedBlock_congr h k1 k2 i, ?_⟩
  have hpad : paddedBlock len m₁ k1 k2 = paddedBlock len m₂ k1 k2 :=
    funext (paddedBlock_congr h k1 k2)
  rw [cmacTag, cmacTag, hpad]

end Sys2Proof.Machine
end

section
/-!
The host port (spec/20_memory.md R70 to R79): the map of the registers, and the accesses that are
refused, ignored or performed.
-/

namespace Sys2Proof.Machine

section
variable {n c off addr : Nat}

/-! ### The map -/

/-- The tag registers of a bank (R48). -/
theorem bankRegAt_tag {k : Nat} (hk : k < 4) : bankRegAt c (0x20 + 4 * k) = some (.tag c k) := by
  unfold bankRegAt
  rw [if_neg (by omega), if_neg (by omega), if_neg (by omega), if_neg (by omega), if_neg (by omega),
    if_pos (by omega)]
  congr 2
  omega

/-- The offsets of a bank without a register (R72). -/
theorem bankRegAt_none (h : (0x14 ≤ off ∧ off < 0x20) ∨ 0x30 ≤ off) : bankRegAt c off = none := by
  unfold bankRegAt
  rw [if_neg (by omega), if_neg (by omega), if_neg (by omega), if_neg (by omega), if_neg (by omega),
    if_neg (by omega)]

/-- The offsets without a register (R72). -/
theorem regAt_none
    (h : (0x018 ≤ addr ∧ addr < 0x020) ∨ (0x040 ≤ addr ∧ addr < 0x100) ∨
      (∃ c, 0x100 + 0x40 * c + 0x14 ≤ addr ∧ addr < 0x100 + 0x40 * c + 0x20) ∨
      (∃ c, 0x100 + 0x40 * c + 0x30 ≤ addr ∧ addr < 0x100 + 0x40 * c + 0x40) ∨
      0x100 + 0x40 * n ≤ addr) : regAt n addr = none := by
  have hlow : 0x018 ≤ addr ∧ ¬ (0x020 ≤ addr ∧ addr < 0x040) := by
    rcases h with h | h | ⟨c, h⟩ | ⟨c, h⟩ | h <;> omega
  unfold regAt
  rw [if_neg (by omega), if_neg (by omega), if_neg (by omega), if_neg (by omega), if_neg (by omega),
    if_neg (by omega), if_neg hlow.2]
  split_ifs with hbank
  · refine bankRegAt_none ?_
    rcases h with h | h | ⟨c, h⟩ | ⟨c, h⟩ | h <;> omega
  · rfl

/-! ### Accesses -/

/-- Which accesses reach no register (R73, R74, R76). -/
theorem addressed_eq_none_iff {a : HostAccess} {s : State} :
    addressed a s = none ↔
      a.width ≠ .w32 ∨ a.addr.toNat % 4 ≠ 0 ∨ regAt s.nctx a.addr.toNat = none := by
  unfold addressed
  split_ifs with hw h4
  · simp [hw, h4]
  · simp [h4]
  · simp [hw]

/-- The locks of R77. -/
theorem writeLocked_of_locked {r : HostReg} {s : State}
    (h : (∃ k, r = .key k ∧ s.pstate ≠ .unprepared) ∨
      (∃ c, (r = .msglen c ∨ r = .msgptr c ∨ r = .msgdata8 c ∨ r = .msgdata32 c) ∧ s.busy c = true)) :
    writeLocked r s = true := by
  rcases h with ⟨k, rfl, hp⟩ | ⟨c, rfl | rfl | rfl | rfl, hb⟩
  · exact decide_eq_true hp
  · exact hb
  · exact hb
  · exact hb
  · exact hb

end

/-! ### The obligations -/

/-- Settles O38: the fixed offsets, the key registers and the bank of the context. -/
theorem registerMap : Obligations.RegisterMap := by
  intro n c hc
  have hbank {off : Nat} (hoff : off < 0x40) : regAt n (0x100 + 0x40 * c + off) = bankRegAt c off :=
    regAt_bank hc hoff
  refine ⟨rfl, rfl, rfl, rfl, rfl, rfl, fun k hk => regAt_key hk, hbank (by decide : 0 < 0x40),
    hbank (by decide), hbank (by decide), hbank (by decide), hbank (by decide), fun k hk => ?_⟩
  rw [Nat.add_assoc, hbank (by omega), bankRegAt_tag hk]

/-- Settles O37: such an access reaches no register. -/
theorem refusedAccessesChangeNothing : Obligations.RefusedAccessesChangeNothing := by
  intro s a h
  have hnone : addressed a s = none := by
    rw [addressed_eq_none_iff]
    rcases h with hw | h4 | hunmapped
    · exact .inl hw
    · exact .inr (.inl h4)
    · exact .inr (.inr (regAt_none hunmapped))
  exact hostAccess_refused hnone

/-- Settles O36: a read reaches its register, or is refused. -/
theorem readsHaveNoEffect : Obligations.ReadsHaveNoEffect := by
  intro s width addr
  refine ⟨fun r hw h4 hr => ?_, fun h => ?_⟩
  · exact hostAccess_read ((addressed_eq hw h4).trans hr) rfl
  · exact hostAccess_refused (addressed_eq_none_iff.mpr h)

/-- Settles O39: the write reaches a locked register. -/
theorem lockedWritesRefused : Obligations.LockedWritesRefused := by
  intro s v addr r h4 hr hlocked
  exact hostAccess_locked ((addressed_eq rfl h4).trans hr) rfl (writeLocked_of_locked hlocked)

end Sys2Proof.Machine
end

section
/-!
The data ports (spec/20_memory.md R82, R83): a write stores its bytes from the pointer on, below MSGCAP.
-/

namespace Sys2Proof.Machine

section
variable {s : State} {c : Nat} {x : Context}

/-! ### Stored bytes -/

/-- What a memory holds at an address after a stored word: the last byte that went there, if one did
(R83). -/
theorem storeWord_read (cap : Word) (m : Memory) (p v : Word) (a : Nat) :
    (storeWord cap m p v).read a =
      if a = (p.toNat + 3) % 2 ^ 32 ∧ a < cap.toNat then some (wordByte v 3)
      else if a = (p.toNat + 2) % 2 ^ 32 ∧ a < cap.toNat then some (wordByte v 2)
      else if a = (p.toNat + 1) % 2 ^ 32 ∧ a < cap.toNat then some (wordByte v 1)
      else if a = p.toNat ∧ a < cap.toNat then some (wordByte v 0)
      else m.read a := by
  have stored (q : Word) : (a = q.toNat ∧ q < cap) = (a = q.toNat ∧ a < cap.toNat) :=
    propext (and_congr_right fun h => by rw [BitVec.lt_def, h])
  simp only [storeWord, storeByte_read, stored]
  rfl

/-- Byte j of a stored word is at `(p + j) mod 2^32` if that is below MSGCAP (R83). -/
theorem storeWord_read_byte {cap : Word} {m : Memory} {p v : Word} {j : Nat} (hj : j < 4)
    (hcap : (p.toNat + j) % 2 ^ 32 < cap.toNat) :
    (storeWord cap m p v).read ((p.toNat + j) % 2 ^ 32) = some (wordByte v j) := by
  rw [storeWord_read]
  have hp := p.isLt
  interval_cases j
  · rw [if_neg (by omega), if_neg (by omega), if_neg (by omega), if_pos (by omega)]
  · rw [if_neg (by omega), if_neg (by omega), if_pos (by omega)]
  · rw [if_neg (by omega), if_pos (by omega)]
  · rw [if_pos (by omega)]

/-- A stored word touches no other byte (R83). -/
theorem storeWord_read_other {cap : Word} {m : Memory} {p v : Word} {a : Nat}
    (ha : (∀ j, j < 4 → a ≠ (p.toNat + j) % 2 ^ 32) ∨ cap.toNat ≤ a) :
    (storeWord cap m p v).read a = m.read a := by
  have hnot {j : Nat} (hj : j < 4) : ¬ (a = (p.toNat + j) % 2 ^ 32 ∧ a < cap.toNat) := by
    rintro ⟨heq, hlt⟩
    rcases ha with ha | ha
    · exact ha j hj heq
    · omega
  have hp : p.toNat = (p.toNat + 0) % 2 ^ 32 := (Nat.mod_eq_of_lt p.isLt).symm
  rw [storeWord_read, if_neg (hnot (by decide)), if_neg (hnot (by decide)), if_neg (hnot (by decide)),
    if_neg (hp ▸ hnot (by decide))]

/-- The byte a `MSGDATA8` write takes from a word that holds one byte (R82). -/
theorem wordByte_setWidth (b : Byte) : wordByte (b.setWidth 32) 3 = b :=
  zext_extract_self b (by decide)

/-- The word's bytes written one by one (R83). -/
theorem writeData32_eq_writeData8 (c : Nat) (v : Word) (s : State) :
    writeData32 c v s =
      writeData8 c ((wordByte v 3).setWidth 32)
        (writeData8 c ((wordByte v 2).setWidth 32)
          (writeData8 c ((wordByte v 1).setWidth 32)
            (writeData8 c ((wordByte v 0).setWidth 32) s))) := by
  simp only [writeData8, updateCtx_msgcap, updateCtx_updateCtx, wordByte_setWidth, BitVec.add_assoc]
  rfl

end

/-- Settles O42: the register is unlocked while the context is idle, and the store is one byte. -/
theorem data8StoresOneByte : Obligations.Data8StoresOneByte := by
  intro s c x v hn hx idle
  refine ⟨storeByte s.msgcap x.mem x.msgptr (wordByte v 3), ?_, storeByte_read _ _ _ _⟩
  rw [perform_write_bank hn hx (by decide) (by decide) (r := .msgdata8 c) rfl ((busy_eq hx).trans idle),
    writeReg, writeData8, updateCtx_eq_set _ hx]
  rfl

/-- Settles O43: the register is unlocked while the context is idle, and the store is one of four
bytes. -/
theorem data32StoresFourBytes : Obligations.Data32StoresFourBytes := by
  intro s c x v hn hx idle
  refine ⟨storeWord s.msgcap x.mem x.msgptr v, ?_, fun j => storeWord_read_byte,
    fun a => storeWord_read_other, writeData32_eq_writeData8 c v s⟩
  rw [perform_write_bank hn hx (by decide) (by decide) (r := .msgdata32 c) rfl ((busy_eq hx).trans idle),
    writeReg, writeData32, updateCtx_eq_set _ hx]
  rfl

end Sys2Proof.Machine
end

section
/-!
The provider's answer (spec/20_memory.md R102).
-/

namespace Sys2Proof.Machine

/-- Settles O30: the beat in flight is the derivation's, or that of the context. -/
theorem providerAnswers : Obligations.ProviderAnswers := by
  refine ⟨fun s q hi => ?_, fun s c x q hx hi => ?_⟩
  · have hstep := providerStep?_eq_some_iff.mpr ⟨s.drv, q, (rfl : s.port? .derivation = _), hi, rfl⟩
    rw [perform, hstep]
    rfl
  · have hport : s.port? (.context c) = some x.port := congrArg (Option.map Context.port) hx
    have hstep := providerStep?_eq_some_iff.mpr ⟨x.port, q, hport, hi, rfl⟩
    rw [perform, hstep, Option.getD_some, State.setPort, updateCtx_eq_set _ hx]
    rfl

end Sys2Proof.Machine
end

section
/-!
The command word field by field: its rows, its decoder and its encoder (spec/30_encoding.md R121 to
R128).
-/

namespace Sys2Proof.Machine

section
variable {w : Word} {i : Instr} {s : State}

/-! ### The fields of a word -/

/-- The reserved field of format P, bits [23:8] (R123). -/
def prepareReserved (w : Word) : BitVec 16 := w.extractLsb' 8 16

/-- The reserved field of format M, bits [15:0] (R124). -/
def macReserved (w : Word) : BitVec 16 := w.extractLsb' 0 16

/-- A word is its fields in format P (R123). -/
theorem prepareFields_append (w : Word) : opcodeField w ++ prepareReserved w ++ keylenField w = w := by
  unfold opcodeField prepareReserved keylenField
  rw [BitVec.extractLsb'_append_extractLsb'_eq_extractLsb' (by decide),
    BitVec.extractLsb'_append_extractLsb'_eq_extractLsb' (by decide)]
  exact BitVec.extractLsb'_eq_self

/-- A word is its fields in format M (R124). -/
theorem macFields_append (w : Word) : opcodeField w ++ ctxField w ++ macReserved w = w := by
  unfold opcodeField ctxField macReserved
  rw [BitVec.extractLsb'_append_extractLsb'_eq_extractLsb' (by decide),
    BitVec.extractLsb'_append_extractLsb'_eq_extractLsb' (by decide)]
  exact BitVec.extractLsb'_eq_self

/-- Two words joined from fields of the same widths are equal field by field. -/
theorem append_inj {m n : Nat} {a c : BitVec m} {b d : BitVec n} :
    a ++ b = c ++ d ↔ a = c ∧ b = d := by
  refine ⟨fun h => ⟨?_, ?_⟩, fun ⟨ha, hb⟩ => ha ▸ hb ▸ rfl⟩
  · simpa only [BitVec.extractLsb'_append_eq_left] using congrArg (BitVec.extractLsb' n m) h
  · simpa only [BitVec.extractLsb'_append_eq_right] using congrArg (BitVec.extractLsb' 0 n) h

/-! ### The rows of the opcode map -/

/-- The mask of `PREPARE` keeps the opcode and the reserved field (R126). -/
theorem and_prepareMask (w : Word) : w &&& prepareMask = opcodeField w ++ prepareReserved w ++ 0#8 := by
  calc w &&& prepareMask
    _ = (opcodeField w ++ prepareReserved w ++ keylenField w) &&&
          (BitVec.allOnes 8 ++ BitVec.allOnes 16 ++ 0#8) := by rw [prepareFields_append]; rfl
    _ = opcodeField w ++ prepareReserved w ++ 0#8 := by
      rw [BitVec.and_append, BitVec.and_append, BitVec.and_allOnes, BitVec.and_allOnes, BitVec.and_zero]

/-- The mask of `MAC` keeps the opcode and the reserved field (R126). -/
theorem and_macMask (w : Word) : w &&& macMask = opcodeField w ++ 0#8 ++ macReserved w := by
  calc w &&& macMask
    _ = (opcodeField w ++ ctxField w ++ macReserved w) &&&
          (BitVec.allOnes 8 ++ 0#8 ++ BitVec.allOnes 16) := by rw [macFields_append]; rfl
    _ = opcodeField w ++ 0#8 ++ macReserved w := by
      rw [BitVec.and_append, BitVec.and_append, BitVec.and_allOnes, BitVec.and_allOnes, BitVec.and_zero]

/-- A word selects the row of `PREPARE` by its opcode and its reserved field (R126). -/
theorem prepareRow_iff :
    w &&& prepareMask = prepareMatch ↔ opcodeField w = 0x01#8 ∧ prepareReserved w = 0#16 := by
  rw [and_prepareMask, show prepareMatch = 0x01#8 ++ 0#16 ++ 0#8 from rfl, BitVec.append_left_inj]
  exact append_inj

/-- A word selects the row of `MAC` by its opcode and its reserved field (R126). -/
theorem macRow_iff : w &&& macMask = macMatch ↔ opcodeField w = 0x02#8 ∧ macReserved w = 0#16 := by
  rw [and_macMask, show macMatch = 0x02#8 ++ 0#8 ++ 0#16 from rfl, append_inj, BitVec.append_left_inj]

/-! ### The decoder, row by row -/

theorem decode_prepareRow (h : w &&& prepareMask = prepareMatch) :
    decode w = .ok (.prepare (keylenField w).toNat) := if_pos h

/-- The rows are disjoint, so the order the decoder tries them in does not matter (R126). -/
theorem decode_macRow (h : w &&& macMask = macMatch) : decode w = .ok (.mac (ctxField w).toNat) := by
  have hnot : ¬ w &&& prepareMask = prepareMatch := by
    rw [prepareRow_iff, (macRow_iff.mp h).1]
    exact fun ⟨hopc, _⟩ => absurd hopc (by decide)
  rw [decode, if_neg hnot, if_pos h]

/-- A word in no row is no command (R127, R128). -/
theorem decode_noRow (hp : ¬ w &&& prepareMask = prepareMatch) (hm : ¬ w &&& macMask = macMatch) :
    ∃ e, decode w = .error e := by
  rw [decode, if_neg hp, if_neg hm]
  split_ifs <;> exact ⟨_, rfl⟩

/-- A word decodes to a command only in that command's row (R126). -/
theorem decode_ok_cases (h : decode w = .ok i) :
    (w &&& prepareMask = prepareMatch ∧ i = .prepare (keylenField w).toNat) ∨
      (w &&& macMask = macMatch ∧ i = .mac (ctxField w).toNat) := by
  by_cases hp : w &&& prepareMask = prepareMatch
  · cases (decode_prepareRow hp).symm.trans h
    exact .inl ⟨hp, rfl⟩
  · by_cases hm : w &&& macMask = macMatch
    · cases (decode_macRow hm).symm.trans h
      exact .inr ⟨hm, rfl⟩
    · obtain ⟨e, he⟩ := decode_noRow hp hm
      cases he.symm.trans h

/-! ### The encoder -/

theorem keylenField_encode (n : Nat) : keylenField (encode (.prepare n)) = BitVec.ofNat 8 n :=
  BitVec.extractLsb'_append_eq_right

theorem ctxField_encode (n : Nat) : ctxField (encode (.mac n)) = BitVec.ofNat 8 n := by
  have h := macFields_append (encode (.mac n))
  exact (append_inj.mp (append_inj.mp h).1).2

/-- A word in the row of `PREPARE` is the word of its operand. -/
theorem encode_keylenField (h : w &&& prepareMask = prepareMatch) :
    encode (.prepare (keylenField w).toNat) = w := by
  obtain ⟨hopc, hres⟩ := prepareRow_iff.mp h
  rw [encode, BitVec.ofNat_toNat, BitVec.setWidth_eq, ← hopc, ← hres, prepareFields_append]

/-- A word in the row of `MAC` is the word of its operand. -/
theorem encode_ctxField (h : w &&& macMask = macMatch) : encode (.mac (ctxField w).toNat) = w := by
  obtain ⟨hopc, hres⟩ := macRow_iff.mp h
  rw [encode, BitVec.ofNat_toNat, BitVec.setWidth_eq, ← hopc, ← hres, macFields_append]

/-! ### Words that are no command -/

theorem command_of_decode_error {e : DecodeError} (h : decode w = .error e) :
    command w s = .next (reject .badEncoding s) := by rw [command, h]

theorem command_of_decode_ok (h : decode w = .ok i) : command w s = exec i s := by rw [command, h]

/-- A word in no row is rejected, and changes nothing else (R127, R128). -/
theorem command_noRow (hp : ¬ w &&& prepareMask = prepareMatch) (hm : ¬ w &&& macMask = macMatch) :
    command w s = .next { s with rej := .badEncoding } := by
  obtain ⟨e, he⟩ := decode_noRow hp hm
  exact command_of_decode_error he

end

/-! ### The obligations -/

/-- Settles O2: the word of a command is in the command's row, and its operand's field holds the
operand. -/
theorem decodeEncodeRoundTrip : Obligations.DecodeEncodeRoundTrip := by
  intro i hwf
  cases i with
  | prepare n =>
    have hn : n < 256 := of_decide_eq_true hwf
    rw [decode_prepareRow (Laws.RowMatch.prepare n), keylenField_encode, BitVec.toNat_ofNat,
      Nat.mod_eq_of_lt hn]
  | mac c =>
    have hc : c < 256 := of_decide_eq_true hwf
    rw [decode_macRow (Laws.RowMatch.mac c), ctxField_encode, BitVec.toNat_ofNat,
      Nat.mod_eq_of_lt hc]

/-- Settles O3: a word that decodes is in a row, so it is its opcode, zeros and its operand, which has
8 bits. -/
theorem encodeDecodeRoundTrip : Obligations.EncodeDecodeRoundTrip := by
  intro w i h
  rcases decode_ok_cases h with ⟨hrow, rfl⟩ | ⟨hrow, rfl⟩
  · exact ⟨decide_eq_true (keylenField w).isLt, encode_keylenField hrow⟩
  · exact ⟨decide_eq_true (ctxField w).isLt, encode_ctxField hrow⟩

/-- Settles O4: by the opcode and the reserved field a word is in the one row or the other, or in
none. -/
theorem reservedWordsRejected : Obligations.ReservedWordsRejected := by
  intro w s
  have notPrepare (h : opcodeField w = 0x01#8 → prepareReserved w ≠ 0#16) :
      ¬ w &&& prepareMask = prepareMatch := fun hrow =>
    h (prepareRow_iff.mp hrow).1 (prepareRow_iff.mp hrow).2
  have notMac (h : opcodeField w = 0x02#8 → macReserved w ≠ 0#16) :
      ¬ w &&& macMask = macMatch := fun hrow => h (macRow_iff.mp hrow).1 (macRow_iff.mp hrow).2
  refine ⟨fun h1 h2 => ?_, fun h1 hres => ?_, fun h2 hres => ?_, fun h1 hres => ?_,
    fun h2 hres => ?_⟩
  · exact command_noRow (notPrepare fun h => absurd h h1) (notMac fun h => absurd h h2)
  · exact command_noRow (notPrepare fun _ => hres)
      (notMac fun h => absurd (h1.symm.trans h) (by decide))
  · exact command_noRow (notPrepare fun h => absurd (h2.symm.trans h) (by decide))
      (notMac fun _ => hres)
  · exact decode_prepareRow (prepareRow_iff.mpr ⟨h1, hres⟩)
  · exact decode_macRow (macRow_iff.mpr ⟨h2, hres⟩)

/-- Settles O1: each word is evaluated. -/
theorem sampleWordsDecode : Obligations.SampleWordsDecode := by
  unfold Obligations.SampleWordsDecode
  decide

/-- Settles O19: the write reaches `CMD`, which decodes the word in the same step. -/
theorem stepRunsDecodedCommand : Obligations.StepRunsDecodedCommand := by
  intro s v rest hin
  refine ⟨fun i hi => ?_, fun e he => ?_⟩
  · rw [step_cmdWrite hin, command_of_decode_ok hi]
  · rw [step_cmdWrite hin, command_of_decode_error he]
    rfl

end Sys2Proof.Machine
end

section
/-!
The script line that loads the key (spec/30_encoding.md R137): eight writes, word by word.
-/

namespace Sys2Proof.Machine

section
variable {s : State} {f : Nat → Word} {rest : List Event}

/-- Byte j of a word made of bytes (R75). -/
theorem wordByte_wordOfBytes (f : Nat → Byte) {j : Nat} (hj : j < 4) :
    wordByte (wordOfBytes f) j = f j := by
  have h : wordByte (wordOfBytes f) 0 ++ wordByte (wordOfBytes f) 1 ++ wordByte (wordOfBytes f) 2 ++
      wordByte (wordOfBytes f) 3 = wordOfBytes f := by
    unfold wordByte
    rw [BitVec.extractLsb'_append_extractLsb'_eq_extractLsb' (by decide),
      BitVec.extractLsb'_append_extractLsb'_eq_extractLsb' (by decide),
      BitVec.extractLsb'_append_extractLsb'_eq_extractLsb' (by decide)]
    exact BitVec.extractLsb'_eq_self
  obtain ⟨⟨⟨h0, h1⟩, h2⟩, h3⟩ := by simpa only [wordOfBytes, append_inj] using h
  interval_cases j <;> assumption

/-- The k-th word that `LOADKEY h` writes (R137). -/
def keyWord (h : List Byte) (k : Nat) : Word := wordOfBytes fun j => h.getD (4 * k + j) 0x00#8

theorem lineLoadKey_eq (h : List Byte) :
    lineLoadKey h = (List.range 8).map fun k => lineWr (0x020 + 4 * k) (keyWord h k) := rfl

/-- The state after a write of `f k` to `KEYk` in `UNPREPARED` (R31). -/
def storeKeyWord (f : Nat → Word) (s : State) (k : Nat) : State :=
  setReply (.write .ok) { s with key := writeKeyWord s.key k (f k) }

theorem storeKeyWord_withInput (f : Nat → Word) (s : State) (k : Nat) (l l' : List Event) :
    { storeKeyWord f { s with input := l } k with input := l' } =
      storeKeyWord f { s with input := l' } k := rfl

@[simp] theorem storeKeyWord_pstate (f : Nat → Word) (s : State) (k : Nat) :
    (storeKeyWord f s k).pstate = s.pstate := by simp only [storeKeyWord, setReply_pstate]

/-- A write of `KEYk` that the host makes next (R31, R77). -/
theorem step_keyWrite {k : Nat} (hp : s.pstate = .unprepared) (hk : k < 8)
    (hin : s.input = lineWr (0x020 + 4 * k) (f k) :: rest) :
    step s = .next (storeKeyWord f { s with input := rest } k) := by
  have hunlocked : writeLocked (.key k) { s with input := rest } = false := by simp [writeLocked, hp]
  rw [step, nextEvent, hin]
  exact perform_write (by omega) (by omega) (regAt_key hk) hunlocked

/-- The host's writes of key words run one after the other, one step each. -/
theorem run_keyWrites {t : State} {ks : List Nat} (hp : s.pstate = .unprepared)
    (hks : ∀ k ∈ ks, k < 8)
    (hin : s.input = ks.map (fun k => lineWr (0x020 + 4 * k) (f k)) ++ rest)
    (ht : ks.foldl (storeKeyWord f) { s with input := rest } = t) :
    Sys2Proof.core.run ks.length s = .next t := by
  induction ks generalizing s with
  | nil => cases hin; exact congrArg _ ht
  | cons k ks ih =>
    obtain ⟨hk, hks⟩ := List.forall_mem_cons.mp hks
    obtain ⟨l, hl, hin⟩ : ∃ l, l = ks.map (fun k => lineWr (0x020 + 4 * k) (f k)) ++ rest ∧
        s.input = lineWr (0x020 + 4 * k) (f k) :: l := ⟨_, rfl, hin⟩
    rw [List.foldl_cons, ← storeKeyWord_withInput f s k l] at ht
    rw [List.length_cons, run_succ (step_keyWrite hp hk hin)]
    exact ih ((storeKeyWord_pstate ..).trans hp) hks hl ht

/-- The key after the key words `ks` were written in order. -/
def writeKeyWords (f : Nat → Word) (ks : List Nat) (key : Vector Byte 32) : Vector Byte 32 :=
  ks.foldl (fun key k => writeKeyWord key k (f k)) key

theorem writeKeyWords_cons (f : Nat → Word) (k : Nat) (ks : List Nat) (key : Vector Byte 32) :
    writeKeyWords f (k :: ks) key = writeKeyWords f ks (writeKeyWord key k (f k)) := by
  simp only [writeKeyWords, List.foldl_cons]

/-- The writes of key words change the key and the reply. -/
theorem foldl_storeKeyWord (f : Nat → Word) {ks : List Nat} (hne : ks ≠ []) (s : State) :
    ks.foldl (storeKeyWord f) s =
      { s with key := writeKeyWords f ks s.key, reply := some (.write .ok) } := by
  induction ks generalizing s with
  | nil => exact absurd rfl hne
  | cons k ks ih =>
    by_cases hks : ks = []
    · subst hks
      rfl
    · rw [List.foldl_cons, ih hks, writeKeyWords_cons]
      simp only [storeKeyWord, setReply]

/-- Key byte i after the first n key words were written (R31). -/
theorem writeKeyWords_range_getElem? (f : Nat → Word) (key : Vector Byte 32) (n : Nat) {i : Nat}
    (hi : i < 32) :
    (writeKeyWords f (List.range n) key)[i]? =
      if i / 4 < n then some (wordByte (f (i / 4)) (i % 4)) else key[i]? := by
  induction n with
  | zero => rfl
  | succ n ih =>
    have hsucc : writeKeyWords f (List.range (n + 1)) key =
        writeKeyWord (writeKeyWords f (List.range n) key) n (f n) := by
      simp only [writeKeyWords, List.range_succ, List.foldl_append, List.foldl_cons, List.foldl_nil]
    rw [hsucc, writeKeyWord_getElem? _ n _ hi, ih]
    by_cases hn : i / 4 = n
    · rw [if_pos hn, if_pos (by omega), hn]
    · rw [if_neg hn]
      exact if_congr (by omega) rfl rfl

end

/-- Settles O60: eight writes of key words, and byte i of the key is byte i mod 4 of word i / 4. -/
theorem loadKeyScript : Obligations.LoadKeyScript := by
  intro s h rest hp _ hin
  rw [lineLoadKey_eq] at hin
  refine ⟨writeKeyWords (keyWord h) (List.range 8) s.key, ?_, fun i hi => ?_⟩
  · exact run_keyWrites hp (fun k hk => List.mem_range.mp hk) hin
      (foldl_storeKeyWord _ (by decide) _)
  · rw [writeKeyWords_range_getElem? _ _ _ hi, if_pos (by omega), keyWord,
      wordByte_wordOfBytes _ (Nat.mod_lt i (by decide)), Nat.div_add_mod]

end Sys2Proof.Machine
end

section
/-!
PROOF. The Block Algebra (spec/40_block_algebra.md): `XORINTO` byte by byte (O5), and `DOUBLE` byte by
byte (O6), as multiplication by x in GF(2^128) (O7) and as a bijection (O8).
-/

namespace Sys2Proof.Machine

section
open Polynomial

/-! ### The bits of `DOUBLE` -/

/-- `DOUBLE` on the 128-bit value: the shift, and the constant where a bit was dropped (R152). -/
theorem double_eq (b : Block) :
    double b = (b <<< 1) ^^^ (if b.getLsbD 127 then 0x87#128 else 0#128) := by
  unfold double
  cases b.getLsbD 127 <;> rfl

theorem getLsbD_shiftLeft_one_zero (b : Block) : (b <<< 1).getLsbD 0 = false := by
  rw [BitVec.getLsbD_shiftLeft]
  rfl

theorem getLsbD_shiftLeft_one_succ (b : Block) {k : Nat} (hk : k < 127) :
    (b <<< 1).getLsbD (k + 1) = b.getLsbD k := by
  rw [BitVec.getLsbD_shiftLeft]
  simp [show k + 1 < 128 by omega]

/-- Bit 0 of the shift is 0, and bit 0 of the constant is 1 (R156 h). -/
theorem double_getLsbD_zero (b : Block) : (double b).getLsbD 0 = b.getLsbD 127 := by
  rw [double_getLsbD]
  cases b.getLsbD 127 <;> rfl

theorem double_getLsbD_succ (b : Block) {k : Nat} (hk : k < 127) :
    (double b).getLsbD (k + 1) = (b.getLsbD k ^^ (b.getLsbD 127 && (0x87#128).getLsbD (k + 1))) := by
  rw [double_eq, BitVec.getLsbD_xor, getLsbD_shiftLeft_one_succ b hk]
  cases b.getLsbD 127 <;> simp

/-- Above the last byte `DOUBLE` is the shift alone (R156 g). -/
theorem double_getLsbD_succ_of_ge (b : Block) {k : Nat} (h7 : 7 ≤ k) (hk : k < 127) :
    (double b).getLsbD (k + 1) = b.getLsbD k := by
  rw [double_getLsbD]
  simp [show k + 1 < 128 by omega, show ¬ k + 1 < 8 by omega]

/-! ### The bytes of `DOUBLE` -/

/-- `B[0] >> 7` is the bit `DOUBLE` drops (R153). -/
theorem blockByte_zero_ushiftRight_seven (b : Block) :
    blockByte b 0 >>> 7 = 1#8 ↔ b.getLsbD 127 = true := by
  have hbits : blockByte b 0 >>> 7 = (BitVec.ofBool (b.getLsbD 127)).setWidth 8 := by
    apply BitVec.eq_of_getLsbD_eq
    intro k hk
    rw [BitVec.getLsbD_ushiftRight, blockByte_getLsbD, BitVec.getLsbD_setWidth]
    rcases k with _ | k
    · simp
    · simp [show ¬ 7 + (k + 1) < 8 by omega]
  rw [hbits]
  cases b.getLsbD 127 <;> decide

/-- Bit 0 comes from the byte behind, the other bits from the byte itself (R153). -/
theorem blockByte_double_of_lt (b : Block) {i : Nat} (hi : i < 15) :
    blockByte (double b) i = (blockByte b i <<< 1) ||| (blockByte b (i + 1) >>> 7) := by
  apply BitVec.eq_of_getLsbD_eq
  intro k hk
  rw [blockByte_getLsbD, show 120 - 8 * i + k = 119 - 8 * i + k + 1 by omega,
    double_getLsbD_succ_of_ge b (by omega) (by omega), BitVec.getLsbD_or, BitVec.getLsbD_shiftLeft,
    BitVec.getLsbD_ushiftRight, blockByte_getLsbD, blockByte_getLsbD]
  rcases k with _ | k
  · simp [show 120 - 8 * (i + 1) + 7 = 119 - 8 * i by omega]
  · simp [show k < 8 by omega, hk, show ¬ 7 + (k + 1) < 8 by omega,
      show 119 - 8 * i + (k + 1) = 120 - 8 * i + k by omega]

/-- A byte extended with zeros is the last byte of the Block (R152, `zext_128`). -/
theorem blockByte_setWidth_last (v : Byte) : blockByte (v.setWidth 128) 15 = v := by
  apply BitVec.eq_of_getLsbD_eq
  intro k hk
  rw [blockByte_getLsbD, BitVec.getLsbD_setWidth]
  simp [hk, show k < 128 by omega]

/-- The last byte takes the constant under the mask of the dropped bit (R153). -/
theorem blockByte_double_last (b : Block) :
    blockByte (double b) 15 =
      (blockByte b 15 <<< 1) ^^^ (reductionByte &&& repByte (b.getLsbD 127)) := by
  have hsum : double b =
      xorInto (b <<< 1) ((reductionByte &&& repByte (b.getLsbD 127)).setWidth 128) := rfl
  rw [hsum, blockByte_xorInto]
  congr 1
  · apply BitVec.eq_of_getLsbD_eq
    intro k hk
    simp only [blockByte_getLsbD, BitVec.getLsbD_shiftLeft]
    simp [hk, show k < 128 by omega, show k - 1 < 8 by omega]
  · exact blockByte_setWidth_last _

/-! ### `DOUBLE` and polynomials -/

/-- The sum of two polynomials over GF(2) is exclusive-or (R157). -/
theorem blockPoly_xor (a b : Block) : blockPoly (a ^^^ b) = blockPoly a + blockPoly b := by
  simp only [blockPoly, ← Finset.sum_add_distrib]
  refine Finset.sum_congr rfl fun k _ => ?_
  rw [BitVec.getLsbD_xor]
  cases a.getLsbD k <;> cases b.getLsbD k <;> simp [CharTwo.add_self_eq_zero]

@[simp] theorem blockPoly_zero : blockPoly 0#128 = 0 := by simp [blockPoly]

/-- 0x87 is the part of the reduction polynomial below `X ^ 128` (R154). -/
theorem blockPoly_reductionConstant : blockPoly 0x87#128 = X ^ 7 + X ^ 2 + X + 1 := by
  have hbits : (Finset.range 128).filter (fun k => (0x87#128).getLsbD k = true) = {7, 2, 1, 0} := by
    decide
  rw [blockPoly, ← Finset.sum_filter, hbits]
  simp [add_assoc]

/-- Multiplication by X shifts the coefficients, and the bit that is dropped becomes that of
`X ^ 128` (R154). -/
theorem X_mul_blockPoly (b : Block) :
    X * blockPoly b = blockPoly (b <<< 1) + if b.getLsbD 127 then X ^ 128 else 0 := by
  have hlow : blockPoly (b <<< 1) =
      ∑ k ∈ Finset.range 127, if b.getLsbD k then X ^ (k + 1) else 0 := by
    rw [blockPoly, Finset.sum_range_succ']
    simp only [getLsbD_shiftLeft_one_zero, Bool.false_eq_true, if_false, add_zero]
    refine Finset.sum_congr rfl fun k hk => ?_
    rw [getLsbD_shiftLeft_one_succ b (Finset.mem_range.mp hk)]
  rw [hlow, blockPoly, Finset.mul_sum, Finset.sum_range_succ]
  simp only [mul_ite, mul_zero, ← pow_succ']

/-- A Block stands for a polynomial of degree at most 127. -/
theorem blockPoly_degree_lt (b : Block) : (blockPoly b).degree < (128 : ℕ) := by
  refine mem_degreeLT.mp (Submodule.sum_mem _ fun k hk => mem_degreeLT.mpr ?_)
  split
  · rw [degree_X_pow]
    exact_mod_cast Finset.mem_range.mp hk
  · rw [degree_zero]
    exact WithBot.bot_lt_coe 128

theorem reductionPoly_monic : reductionPoly.Monic := by
  unfold reductionPoly
  monicity!

theorem reductionPoly_degree : reductionPoly.degree = (128 : ℕ) := by
  unfold reductionPoly
  compute_degree!

/-- Removing `X ^ 128` and adding 0x87 is adding the reduction polynomial (R154). -/
theorem reductionPoly_eq : reductionPoly = X ^ 128 + blockPoly 0x87#128 := by
  rw [blockPoly_reductionConstant]
  unfold reductionPoly
  simp only [add_assoc]

/-- The division of `X * blockPoly b` by the reduction polynomial: the quotient is the dropped bit,
the remainder is `DOUBLE`. -/
theorem blockPoly_double_add_reduction (b : Block) :
    blockPoly (double b) + reductionPoly * (if b.getLsbD 127 then 1 else 0) = X * blockPoly b := by
  rw [double_eq, blockPoly_xor, X_mul_blockPoly]
  cases b.getLsbD 127 with
  | false => simp only [Bool.false_eq_true, if_false, blockPoly_zero, mul_zero, add_zero]
  | true =>
    rw [if_pos rfl, if_pos rfl, if_pos rfl, mul_one, reductionPoly_eq, add_comm (X ^ 128), add_assoc,
      CharTwo.add_cancel_left]

/-! ### The inverse of `DOUBLE` -/

/-- The inverse of `DOUBLE` as R156 (h) writes it. -/
def undouble (b : Block) : Block :=
  ((b ^^^ (if b.getLsbD 0 then 0x87#128 else 0#128)) >>> 1) |||
    ((BitVec.ofBool (b.getLsbD 0)).setWidth 128 <<< 127)

theorem undouble_getLsbD_last (b : Block) : (undouble b).getLsbD 127 = b.getLsbD 0 := by
  rw [undouble, BitVec.getLsbD_or, BitVec.getLsbD_ushiftRight, BitVec.getLsbD_shiftLeft]
  cases b.getLsbD 0 <;> simp

theorem undouble_getLsbD_of_lt (b : Block) {k : Nat} (hk : k < 127) :
    (undouble b).getLsbD k = (b.getLsbD (k + 1) ^^ (b.getLsbD 0 && (0x87#128).getLsbD (k + 1))) := by
  simp only [undouble, BitVec.getLsbD_or, BitVec.getLsbD_ushiftRight, BitVec.getLsbD_shiftLeft,
    BitVec.getLsbD_xor, Nat.add_comm 1 k]
  cases b.getLsbD 0 <;> simp [hk]

theorem undouble_double (b : Block) : undouble (double b) = b := by
  apply BitVec.eq_of_getLsbD_eq
  intro k hk
  rcases Nat.lt_or_eq_of_le (Nat.le_of_lt_succ hk) with hk | rfl
  · rw [undouble_getLsbD_of_lt _ hk, double_getLsbD_succ _ hk, double_getLsbD_zero, Bool.xor_assoc,
      Bool.xor_self, Bool.xor_false]
  · rw [undouble_getLsbD_last, double_getLsbD_zero]

theorem double_undouble (b : Block) : double (undouble b) = b := by
  apply BitVec.eq_of_getLsbD_eq
  intro k hk
  rcases k with _ | k
  · rw [double_getLsbD_zero, undouble_getLsbD_last]
  · rw [double_getLsbD_succ _ (by omega), undouble_getLsbD_of_lt _ (by omega), undouble_getLsbD_last,
      Bool.xor_assoc, Bool.xor_self, Bool.xor_false]

end

/-- Settles O6: byte by byte on the bits, where the mask is made of the top bit of byte 0. -/
theorem doubleByteByByte : Obligations.DoubleByteByByte := by
  intro b
  refine ⟨fun i hi => blockByte_double_of_lt b hi, ?_⟩
  simp only [blockByte_double_last, blockByte_zero_ushiftRight_seven, reductionByte, repByte]

/-- Settles O7: `DOUBLE` is the remainder, because it has a degree below 128. -/
theorem doubleMultipliesByX : Obligations.DoubleMultipliesByX := by
  intro b
  have hdeg : (blockPoly (double b)).degree < reductionPoly.degree :=
    (blockPoly_degree_lt (double b)).trans_eq reductionPoly_degree.symm
  rw [← blockPoly_double_add_reduction, Polynomial.add_modByMonic,
    Polynomial.self_mul_modByMonic reductionPoly_monic, add_zero,
    (Polynomial.modByMonic_eq_self_iff reductionPoly_monic).mpr hdeg]

/-- Settles O8: bit by bit, where the constant is exclusive-ored in twice and cancels. -/
theorem doubleIsInvertible : Obligations.DoubleIsInvertible := by
  intro b
  exact ⟨double_getLsbD_zero b, undouble_double b, double_undouble b⟩

/-- Settles O5: `XORINTO` is exclusive-or of 128-bit values, and so of their bytes. -/
theorem xorIntoIsBytewise : Obligations.XorIntoIsBytewise := by
  refine ⟨fun d s u => ⟨fun i _ => blockByte_xorInto d s i, rfl, ?_, ?_, ?_, ?_, ?_⟩, rfl⟩
  · exact BitVec.xor_zero
  · exact BitVec.xor_self
  · rw [xorInto, xorInto, BitVec.xor_assoc, BitVec.xor_self, BitVec.xor_zero]
  · exact BitVec.xor_comm d s
  · exact BitVec.xor_assoc d s u

end Sys2Proof.Machine
end

section
/-!
The steps of the derivation session (spec/41_subkey_derivation.md R171, R174, R175).
-/

namespace Sys2Proof.Machine

section
variable {s t : State} {b : Block}

/-- The event of an enabled sequencer step takes that step (R18 b). -/
theorem perform_sequencer {x : Session} (h : sequencerStep? x s = some t) :
    perform (.sequencer x) s = .next t := by rw [perform, h, Option.getD_some]

/-! ### Which derivation step is enabled -/

theorem deriveStep?_unsent (hp : s.pstate = .preparing) (hd : s.dsent = false)
    (hi : s.drv.infl = .empty) : deriveStep? s = some (deriveSend s) := by
  simp only [deriveStep?, if_pos hp, hd, hi]

theorem deriveStep?_ciphertext (hp : s.pstate = .preparing) (hd : s.dsent = true)
    (hi : s.drv.infl = .response false b) : deriveStep? s = some (deriveReceive b s) := by
  simp only [deriveStep?, if_pos hp, hd, hi]

theorem deriveStep?_failure (hp : s.pstate = .preparing) (hd : s.dsent = true)
    (hi : s.drv.infl = .response true b) : deriveStep? s = some (deriveFail s) := by
  simp only [deriveStep?, if_pos hp, hd, hi]

end

/-- Settles O23: the send step is the enabled one, and its beat is the request of R171. -/
theorem derivationSend : Obligations.DerivationSend := by
  intro s hp hd hi
  have hstep : sequencerStep? .derivation s = some (deriveSend s) := deriveStep?_unsent hp hd hi
  exact perform_sequencer hstep

/-- Settles O24: the error bit of the response says which of the two receive steps is enabled. -/
theorem derivationReceive : Obligations.DerivationReceive := by
  intro s b hp hd
  refine ⟨fun hi => ?_, fun hi => ?_⟩
  · have hstep : sequencerStep? .derivation s = some (deriveReceive b s) :=
      deriveStep?_ciphertext hp hd hi
    exact perform_sequencer hstep
  · have hstep : sequencerStep? .derivation s = some (deriveFail s) := deriveStep?_failure hp hd hi
    exact perform_sequencer hstep

end Sys2Proof.Machine
end

section
/-!
PROOF. Padding (spec/42_padding.md): the length analyser (O9), the padded Blocks and their concatenation
(O10), and the empty message (O11).
-/

namespace Sys2Proof.Machine

section
variable {len : Nat} {msg : Nat → Byte} {k1 k2 : Block}

/-! ### The length analyser -/

theorem complete_eq_false_iff : complete len = false ↔ len = 0 ∨ len % 16 ≠ 0 := by
  rw [← Bool.not_eq_true, complete_iff]
  omega

theorem lastBytes_eq_zero_iff : lastBytes len = 0 ↔ len = 0 := by
  unfold lastBytes nblk
  split_ifs <;> omega

theorem lastBytes_eq_sixteen_iff : lastBytes len = 16 ↔ complete len = true := by
  have hadd := lastBytes_add len
  have hle := lastBytes_le len
  have hzero := lastBytes_eq_zero_iff (len := len)
  rw [complete_iff]
  omega

/-- The last Block of a message that is not complete takes what is left of it, nothing of the empty
message (R182). -/
theorem lastBytes_of_incomplete (h : complete len = false) : lastBytes len = len % 16 := by
  have hadd := lastBytes_add len
  have hle := lastBytes_le len
  have hzero := lastBytes_eq_zero_iff (len := len)
  rw [complete_eq_false_iff] at h
  omega

/-- The form of `nblk` that cannot overflow 32 bits (R182). -/
theorem nblk_eq_shift_and_mask (h : 0 < len) :
    nblk len = (len >>> 4) + (if len &&& 15 ≠ 0 then 1 else 0) := by
  rw [nblk, if_neg (Nat.ne_of_gt h), Nat.shiftRight_eq_div_pow,
    show len &&& 15 = len % 16 from Nat.and_two_pow_sub_one_eq_mod len 4]
  split_ifs <;> omega

theorem padlen_add_lastBytes (len : Nat) : padlen len + lastBytes len = len + 16 := by
  have hadd := lastBytes_add len
  have hpos := nblk_pos len
  unfold padlen
  omega

/-- The length that `PAD` gives the message (R181, R182). -/
theorem padlen_eq (len : Nat) :
    padlen len = if complete len then len else len + 1 + (15 - len % 16) := by
  have hadd := padlen_add_lastBytes len
  cases hc : complete len with
  | true =>
    have hlast := lastBytes_eq_sixteen_iff.mpr hc
    rw [if_pos rfl]
    omega
  | false =>
    have hlast := lastBytes_of_incomplete hc
    rw [if_neg Bool.false_ne_true]
    omega

/-! ### The padded Blocks -/

theorem paddedBlock_before_last {i : Nat} (h : i + 1 < nblk len) :
    paddedBlock len msg k1 k2 i = blockOfBytes fun j => msg (16 * i + j) := if_pos h

theorem paddedBlock_last :
    paddedBlock len msg k1 k2 (nblk len - 1) =
      xorInto (lastBlock len msg) (selectSubkey len k1 k2) := if_neg (by omega)

theorem blockByte_lastBlock {j : Nat} (h : j < 16) :
    blockByte (lastBlock len msg) j =
      if j < lastBytes len then msg (16 * (nblk len - 1) + j)
      else if j = lastBytes len then 0x80#8 else 0x00#8 := blockByte_blockOfBytes _ h

/-! ### Blocks as lists of bytes -/

theorem getElem_blockBytes (b : Block) {j : Nat} (h : j < (blockBytes b).length) :
    (blockBytes b)[j] = blockByte b j := by simp [blockBytes]

theorem blockBytes_blockOfBytes (f : Nat → Byte) :
    blockBytes (blockOfBytes f) = (List.range 16).map f :=
  List.map_congr_left fun _ hj => blockByte_blockOfBytes f (List.mem_range.mp hj)

theorem blockBytes_xorInto (d s : Block) :
    blockBytes (xorInto d s) =
      List.zipWith (fun a b => a ^^^ b) (blockBytes d) (blockBytes s) := by
  simp [blockBytes, List.zipWith_map]

/-- The tail form of `XORINTO` on a buffer that ends in the Block b (R151). -/
theorem xorTail_append_blockBytes (l : List Byte) (b s : Block) :
    xorTail (l ++ blockBytes b) s = l ++ blockBytes (xorInto b s) := by
  have hlen : (l ++ blockBytes b).length - 16 = l.length := by simp
  rw [xorTail, hlen, List.take_left, List.drop_left, blockBytes_xorInto]

/-- The first n Blocks of a byte sequence are its first 16n bytes. -/
theorem flatMap_range_blocks (f : Nat → Byte) (n : Nat) :
    (List.range n).flatMap (fun i => (List.range 16).map fun j => f (16 * i + j)) =
      (List.range (16 * n)).map f := by
  induction n with
  | zero => rfl
  | succ n ih =>
    rw [List.range_succ (n := n), List.flatMap_append, ih, List.flatMap_singleton, Nat.mul_succ,
      List.range_add, List.map_append, List.map_map]
    rfl

/-! ### `PAD` -/

/-- A complete message ends in its last Block (R186). -/
theorem message_eq_of_complete (h : complete len = true) :
    (List.range len).map msg =
      (List.range (16 * (nblk len - 1))).map msg ++ blockBytes (lastBlock len msg) := by
  have hlast : lastBytes len = 16 := lastBytes_eq_sixteen_iff.mpr h
  have hlen : len = 16 * (nblk len - 1) + 16 := by
    have hadd := lastBytes_add len
    omega
  have hbytes : blockBytes (lastBlock len msg) =
      (List.range 16).map fun j => msg (16 * (nblk len - 1) + j) :=
    List.map_congr_left fun j hj => by
      have hj := List.mem_range.mp hj
      rw [blockByte_lastBlock hj, hlast, if_pos hj]
  conv_lhs => rw [hlen]
  rw [hbytes, List.range_add, List.map_append, List.map_map]
  rfl

/-- The bytes of a last Block that is not a whole message Block: what is left of the message, one byte
0x80 and zeros (R186). -/
theorem blockBytes_lastBlock_of_incomplete (h : complete len = false) :
    blockBytes (lastBlock len msg) =
      (List.range (lastBytes len)).map (fun j => msg (16 * (nblk len - 1) + j)) ++
        0x80#8 :: List.replicate (15 - lastBytes len) 0x00#8 := by
  have hlast := lastBytes_of_incomplete h
  apply List.ext_getElem
  · simp only [blockBytes_length, List.length_append, List.length_map, List.length_range,
      List.length_cons, List.length_replicate]
    omega
  · intro j hj _
    rw [getElem_blockBytes, blockByte_lastBlock (blockBytes_length _ ▸ hj), List.getElem_append]
    by_cases hlt : j < lastBytes len
    · simp [hlt]
    · rcases Nat.eq_or_lt_of_le (Nat.le_of_not_lt hlt) with heq | hgt
      · simp [← heq]
      · simp [hlt, Nat.ne_of_gt hgt, List.getElem_cons, Nat.sub_ne_zero_of_lt hgt]

/-- A message that is not complete, with its padding, ends in its last Block (R181, R186). -/
theorem message_padding_eq_of_incomplete (h : complete len = false) :
    (List.range len).map msg ++ 0x80#8 :: List.replicate (15 - len % 16) 0x00#8 =
      (List.range (16 * (nblk len - 1))).map msg ++ blockBytes (lastBlock len msg) := by
  rw [blockBytes_lastBlock_of_incomplete h, ← List.append_assoc, lastBytes_of_incomplete h]
  congr 1
  conv_lhs => rw [← lastBytes_add len, lastBytes_of_incomplete h]
  rw [List.range_add, List.map_append, List.map_map]
  rfl

/-- `PAD` leaves the Blocks before the last as they are, and exclusive-ors the last one with its subkey
(R180, R181). -/
theorem pad_eq (len : Nat) (msg : Nat → Byte) (k1 k2 : Block) :
    pad ((List.range len).map msg) k1 k2 =
      (List.range (16 * (nblk len - 1))).map msg ++
        blockBytes (xorInto (lastBlock len msg) (selectSubkey len k1 k2)) := by
  rw [pad, List.length_map, List.length_range, ← xorTail_append_blockBytes, selectSubkey]
  simp only [← complete_iff]
  cases hc : complete len with
  | true => rw [if_pos rfl, if_pos rfl, message_eq_of_complete hc]
  | false =>
    rw [if_neg Bool.false_ne_true, if_neg Bool.false_ne_true, message_padding_eq_of_incomplete hc]

/-- The concatenation of the padded Blocks is `PAD` of the message (R186). -/
theorem flatMap_paddedBlock (len : Nat) (msg : Nat → Byte) (k1 k2 : Block) :
    ((List.range (nblk len)).flatMap fun i => blockBytes (paddedBlock len msg k1 k2 i)) =
      pad ((List.range len).map msg) k1 k2 := by
  have hn : nblk len = nblk len - 1 + 1 := (Nat.sub_add_cancel (nblk_pos len)).symm
  have hinit : (List.range (nblk len - 1)).flatMap
        (fun i => blockBytes (paddedBlock len msg k1 k2 i)) =
      (List.range (16 * (nblk len - 1))).map msg := by
    rw [← flatMap_range_blocks]
    refine List.flatMap_congr fun i hi => ?_
    have hi := List.mem_range.mp hi
    rw [paddedBlock_before_last (by omega), blockBytes_blockOfBytes]
  rw [pad_eq, ← hinit, ← paddedBlock_last]
  conv_lhs => rw [hn]
  rw [List.range_succ, List.flatMap_append, List.flatMap_singleton]

theorem message_eq (r c : Nat) (x : Context) :
    message r c x = (List.range x.msglen.toNat).map (messageByte r c x) := by
  simp only [message, memRead, Nat.zero_add]

/-! ### The empty message -/

theorem lastBlock_zero : lastBlock 0 msg = 0x80000000000000000000000000000000#128 := by
  simp only [lastBlock, show lastBytes 0 = 0 from rfl, Nat.not_lt_zero, if_false]
  decide

/-- A `MAC` of an idle context whose message fits is accepted (R228, R230). -/
theorem exec_mac_accepted {s : State} {c : Nat} {x : Context} (hp : s.pstate = .prepared)
    (hx : s.ctxs[c]? = some x) (hb : x.busy = false) (hlen : x.msglen ≤ s.msgcap) :
    exec (.mac c) s = .next (macStart c s) := by
  have haligned : aligned x.msglen.toNat = true := by simp [aligned, padlen_aligned]
  simp [exec, execMac, hp, hx, hb, BitVec.not_lt.mpr hlen, haligned]

theorem macStart_rej (c : Nat) (s : State) : (macStart c s).rej = .accepted := by
  rw [macStart_eq, updateCtx_rej]

theorem macStart_busy {s : State} {c : Nat} {x : Context} (hx : s.ctxs[c]? = some x) :
    (macStart c s).busy c = true := by
  rw [macStart_eq, State.busy, updateCtx_getElem?, if_pos rfl]
  simp [hx]

end

/-- Settles O9: the length is 16 times the Blocks before the last and the bytes in it, 1 to 16 unless
the message is empty. -/
theorem lengthAnalyser : Obligations.LengthAnalyser := by
  intro len hlen
  exact ⟨complete_iff len, rfl, nblk_pos len, nblk_le hlen,
    (Nat.add_comm _ _).trans (lastBytes_add len), lastBytes_le len, lastBytes_eq_zero_iff,
    lastBytes_eq_sixteen_iff, fun _ => lastBytes_of_incomplete, nblk_eq_shift_and_mask, rfl,
    padlen_eq len⟩

/-- Settles O10: byte by byte from the definition, and the Blocks before the last followed by the last
are the message with its padding and its tail exclusive-ored. -/
theorem paddedBlocksArePad : Obligations.PaddedBlocksArePad := by
  intro s c x
  refine ⟨fun i j hi hj => ?_, fun j hj => ?_, ?_⟩
  · rw [State.paddedBlock, paddedBlock_before_last hi, blockByte_blockOfBytes _ hj]
  · rw [State.paddedBlock, paddedBlock_last, blockByte_xorInto, blockByte_lastBlock hj, selectSubkey]
  · rw [message_eq]
    exact flatMap_paddedBlock ..

/-- Settles O11: the last Block of the empty message is the only one, and no length is too small. -/
theorem emptyMessageIsOneBlock : Obligations.EmptyMessageIsOneBlock := by
  refine ⟨rfl, rfl, rfl, fun msg k1 k2 => ?_, fun s c x hp hx hb hlen => ?_⟩
  · exact congrArg (xorInto · k2) lastBlock_zero
  · have hfits : x.msglen ≤ s.msgcap := by rw [hlen, BitVec.le_def]; exact Nat.zero_le _
    exact ⟨_, exec_mac_accepted hp hx hb hfits, macStart_rej c s, macStart_busy hx⟩

end Sys2Proof.Machine
end

section
/-!
The steps of the tag engine (spec/43_tag_engine.md R203 to R206), and that the steps of different
contexts commute (R209 c).
-/

namespace Sys2Proof.Machine

section
variable {s : State} {c d : Nat} {x : Context} {b : Block}

/-! ### Which step of a context is enabled -/

theorem tagStep?_send (hx : s.ctxs[c]? = some x) (hb : x.busy = true) (hi : x.port.infl = .empty)
    (he : x.sent = x.rcvd) (hn : x.sent < x.nblk) : tagStep? c s = some (tagSend s c x) := by
  simp only [tagStep?, hx, if_pos hb, hi]
  exact if_pos ⟨he, hn⟩

theorem tagStep?_receive (hx : s.ctxs[c]? = some x) (hb : x.busy = true)
    (hi : x.port.infl = .response false b) (hn : x.rcvd.toNat + 1 < x.nblk.toNat) :
    tagStep? c s = some (tagReceive s c b) := by
  simp only [tagStep?, hx, if_pos hb, hi, if_pos hn]

theorem tagStep?_receiveLast (hx : s.ctxs[c]? = some x) (hb : x.busy = true)
    (hi : x.port.infl = .response false b) (hn : x.rcvd.toNat + 1 = x.nblk.toNat) :
    tagStep? c s = some (tagReceiveLast s c b) := by
  simp only [tagStep?, hx, if_pos hb, hi, if_neg hn.not_lt, if_pos hn]

theorem tagStep?_fail (hx : s.ctxs[c]? = some x) (hb : x.busy = true)
    (hi : x.port.infl = .response true b) : tagStep? c s = some (tagFail s c) := by
  simp only [tagStep?, hx, if_pos hb, hi]

/-! ### What the host sees of a context afterwards -/

/-- The value of a context that was changed. -/
theorem updateCtx_getElem?_self (hx : s.ctxs[c]? = some x) (f : Context → Context) :
    (s.updateCtx c f).ctxs[c]? = some (f x) := by
  rw [updateCtx_getElem?, if_pos rfl, hx, Option.map_some]

/-- The `TAG` registers of a context with an error read 0 (R55). -/
theorem readReg_tag_of_error (hx : s.ctxs[c]? = some x) (herr : x.cerr ≠ .noError) (k : Nat) :
    readReg (.tag c k) s = 0#32 := by
  rw [readReg, ofContext_eq hx, tagWord, tagValid, decide_eq_false herr, Bool.and_false]
  exact if_neg Bool.false_ne_true

/-! ### Steps of different contexts -/

/-- Changes of two different contexts commute. -/
theorem updateCtx_comm (s : State) (hcd : c ≠ d) (f g : Context → Context) :
    (s.updateCtx c f).updateCtx d g = (s.updateCtx d g).updateCtx c f := by
  simp only [State.updateCtx, List.modify_modify_ne _ _ _ hcd]

/-- The sequencer's step of a context, enabled or not, is a change of that context. -/
theorem tagStep?_getD_updateCtx (s : State) (c : Nat) :
    ∃ f, (tagStep? c s).getD s = s.updateCtx c f := by
  cases h : tagStep? c s with
  | none => exact ⟨id, (updateCtx_id s c).symm⟩
  | some t => exact tagStep?_updateCtx h

/-- The next beat is made of the context's own fields and the shared state (R203, R186). -/
theorem tagRequest_updateCtx (s : State) (c d : Nat) (g : Context → Context) (x : Context) :
    (s.updateCtx d g).tagRequest c x = s.tagRequest c x := rfl

/-- A change of context d neither enables nor alters the step of another context: the step reads its
own context and the shared state only (R209 c). -/
theorem tagStep?_of_updateCtx_ne (s : State) (hdc : d ≠ c) (g : Context → Context) :
    tagStep? c (s.updateCtx d g) = (tagStep? c s).map fun t => t.updateCtx d g := by
  have hsame : (s.updateCtx d g).ctxs[c]? = s.ctxs[c]? :=
    (updateCtx_getElem? s d c g).trans (if_neg hdc)
  cases hx : s.ctxs[c]? with
  | none => simp only [tagStep?, hsame, hx, Option.map_none]
  | some x =>
    by_cases hb : x.busy = true
    · simp only [tagStep?, hsame, hx, if_pos hb]
      cases hi : x.port.infl with
      | empty =>
        dsimp only
        split_ifs
        · simp only [tagSend, tagRequest_updateCtx, Option.map_some, updateCtx_comm s hdc]
        · rfl
      | request q => rfl
      | response err b =>
        cases err with
        | true => simp only [tagFail_eq, Option.map_some, updateCtx_comm s hdc]
        | false =>
          dsimp only
          split_ifs
          · simp only [tagReceive, Option.map_some, updateCtx_comm s hdc]
          · simp only [tagReceiveLast_eq, Option.map_some, updateCtx_comm s hdc]
          · rfl
    · simp only [tagStep?, hsame, hx, if_neg hb, Option.map_none]

/-- The same of the state after the step, which is the old one when the step is not enabled. -/
theorem tagStep?_getD_of_updateCtx_ne (s : State) (hdc : d ≠ c) (g : Context → Context) :
    (tagStep? c (s.updateCtx d g)).getD (s.updateCtx d g) =
      ((tagStep? c s).getD s).updateCtx d g := by
  rw [tagStep?_of_updateCtx_ne s hdc]
  exact Option.getD_map _ s _

end

/-! ### The obligations -/

/-- Settles O34: each step is a change of its own context and does not see the other's, and changes of
different contexts commute. -/
theorem sequencerStepsCommute : Obligations.SequencerStepsCommute := by
  intro s c d hcd
  obtain ⟨f, hf⟩ := tagStep?_getD_updateCtx s c
  obtain ⟨g, hg⟩ := tagStep?_getD_updateCtx s d
  simp only [sequencerStep?]
  rw [hf, hg, tagStep?_getD_of_updateCtx_ne s hcd, tagStep?_getD_of_updateCtx_ne s hcd.symm, hf, hg]
  exact updateCtx_comm s hcd.symm g f

/-- Settles O26: the send step is the enabled one; that Block i is the last is said as i + 1 = NBLK in
the model. -/
theorem tagSendStep : Obligations.TagSendStep := by
  intro s c x hx hb hi he hn
  have hstep : sequencerStep? (.context c) s = some (tagSend s c x) := tagStep?_send hx hb hi he hn
  have hlast : x.sent.toNat + 1 = x.nblk.toNat ↔ x.sent.toNat = x.nblk.toNat - 1 := by
    have hlt : x.sent.toNat < x.nblk.toNat := hn
    omega
  rw [perform_sequencer hstep, tagSend, updateCtx_eq_set _ hx, State.tagRequest]
  simp only [hlast]
  rfl

/-- Settles O27: the receive step of a Block before the last is the enabled one. -/
theorem tagReceiveStep : Obligations.TagReceiveStep := by
  intro s c x b hx hb hi hn
  have hstep : sequencerStep? (.context c) s = some (tagReceive s c b) := tagStep?_receive hx hb hi hn
  rw [perform_sequencer hstep, tagReceive, updateCtx_eq_set _ hx]
  rfl

/-- Settles O28: the receive step of the last Block leaves its context idle with a valid tag. -/
theorem tagReceiveLastStep : Obligations.TagReceiveLastStep := by
  intro s c x b hx hb hi hn herr
  have hstep : sequencerStep? (.context c) s = some (tagReceiveLast s c b) :=
    tagStep?_receiveLast hx hb hi hn
  rw [tagReceiveLast_eq] at hstep
  have hafter := updateCtx_getElem?_self hx fun y =>
    { y with
      port := y.port.setSlot .empty, acc := b, rcvd := y.rcvd + 1#32, busy := false, done := true }
  have hidle := busy_eq hafter
  exact ⟨_, perform_sequencer hstep, updateCtx_eq_set _ hx, readReg_tag_of_valid hafter rfl herr,
    hidle, hidle, hidle, hidle⟩

/-- Settles O29: the failure step is enabled at any Block index, and the error hides the tag. -/
theorem tagFailureStep : Obligations.TagFailureStep := by
  intro s c x b hx hb hi
  have hstep : sequencerStep? (.context c) s = some (tagFail s c) := tagStep?_fail hx hb hi
  rw [tagFail_eq] at hstep
  exact ⟨_, perform_sequencer hstep, updateCtx_eq_set _ hx,
    readReg_tag_of_error (updateCtx_getElem?_self hx _) nofun⟩

end Sys2Proof.Machine
end

section
/-!
The two commands (spec/44_commands.md): what a `CMD` write does by the first check that holds (R236),
what a command leaves unchanged (R225 e, R229, R230), and that a result stays until the next accepted
`MAC` of its context (R231, R80).
-/

namespace Sys2Proof.Machine

section
variable {s t : State} {n c d : Nat} {x z : Context}

/-! ### What a command answers, check by check -/

/-- In `FATAL` every command is rejected (R236 line 2). -/
theorem exec_fatal (i : Instr) (hp : s.pstate = .fatal) :
    exec i s = .next (reject .fatalState s) := by
  cases i with
  | prepare n => exact if_pos hp
  | mac c => exact if_pos hp

theorem exec_prepare_badState (hf : s.pstate ≠ .fatal) (hu : s.pstate ≠ .unprepared) :
    exec (.prepare n) s = .next (reject .badState s) :=
  (if_neg hf).trans (if_pos hu)

/-- In `UNPREPARED` only the length decides (R221). -/
theorem exec_prepare_unprepared (hp : s.pstate = .unprepared) :
    exec (.prepare n) s =
      .next (if n = 16 ∨ n = 24 ∨ n = 32 then prepareStart n s else prepareIllegal s) := by
  simp only [← legalKeyLength_iff]
  rw [exec, execPrepare, hp, if_neg nofun, if_neg (not_not.mpr rfl), apply_ite Host.Outcome.next]

theorem exec_mac_badState (hf : s.pstate ≠ .fatal) (hp : s.pstate ≠ .prepared) :
    exec (.mac c) s = .next (reject .badState s) :=
  (if_neg hf).trans (if_pos hp)

theorem exec_mac_badContext (hp : s.pstate = .prepared) (hx : s.ctxs[c]? = none) :
    exec (.mac c) s = .next (reject .badContext s) := by
  simp [exec, execMac, hp, hx]

theorem exec_mac_contextBusy (hp : s.pstate = .prepared) (hx : s.ctxs[c]? = some x)
    (hb : x.busy = true) : exec (.mac c) s = .next (reject .contextBusy s) := by
  simp [exec, execMac, hp, hx, hb]

theorem exec_mac_badLength (hp : s.pstate = .prepared) (hx : s.ctxs[c]? = some x)
    (hb : x.busy = false) (hlen : s.msgcap < x.msglen) :
    exec (.mac c) s = .next (reject .badLength s) := by
  simp [exec, execMac, hp, hx, hb, hlen]

/-- The state in which an accepted `MAC` of an existing context leaves the core (R230). -/
theorem macStart_eq_set (hx : s.ctxs[c]? = some x) :
    macStart c s =
      { s with
        rej := .accepted,
        ctxs := s.ctxs.set c
          { x with
            busy := true, done := false, cerr := .noError,
            nblk := BitVec.ofNat 32 (nblk x.msglen.toNat), sent := 0#32, rcvd := 0#32,
            acc := zeroBlock } } := by
  rw [macStart_eq]
  exact updateCtx_eq_set _ hx

/-- The host's write of `CMD` carries out the command and is answered OK (R236). -/
theorem perform_cmdWrite (v : Word) (s : State) :
    perform (cmdWrite v) s = onNext (command v s) (setReply (.write .ok)) :=
  hostAccess_write (addressed_cmd v s) rfl rfl

/-! ### What a command can change -/

/-- `PREPARE` changes the command registers and the derivation's progress only (R222, R223). -/
theorem exec_prepare_frame (h : exec (.prepare n) s = .next t) :
    t = { s with
          rej := t.rej, perr := t.perr, keylen := t.keylen, dsent := t.dsent,
          pstate := t.pstate } := by
  rcases exec_cases (.prepare n) s with
    ⟨_, he⟩ | ⟨_, -, -, -, he⟩ | ⟨_, -, -, -, he⟩ | ⟨_, _, hi, -⟩
  · cases h.symm.trans he; rfl
  · cases h.symm.trans he; rfl
  · cases h.symm.trans he; rfl
  · cases hi

/-- `MAC` changes `REJ` and, in its own context, the fields of the computation only (R229, R230). -/
theorem exec_mac_frame (h : exec (.mac c) s = .next t) :
    ∃ r f, t = ({ s with rej := r } : State).updateCtx c f ∧
      ∀ x, f x = { x with
                   busy := (f x).busy, done := (f x).done, cerr := (f x).cerr, nblk := (f x).nblk,
                   sent := (f x).sent, rcvd := (f x).rcvd, acc := (f x).acc } := by
  rcases exec_cases (.mac c) s with
    ⟨r, he⟩ | ⟨_, hi, -⟩ | ⟨_, hi, -⟩ | ⟨_, _, hi, -, -, -, -, he⟩
  · cases h.symm.trans he
    exact ⟨r, id, (updateCtx_id _ c).symm, fun _ => rfl⟩
  · cases hi
  · cases hi
  · cases hi
    cases h.symm.trans he
    exact ⟨_, _, macStart_eq c s, fun _ => rfl⟩

/-! ### The result of a finished context -/

/-- What becomes of the result of context `x`: it is kept, or a command has made the context busy
again. -/
def ResultKept (x : Context) (t : State) (y : Context) : Prop :=
  (y.done = x.done ∧ y.cerr = x.cerr ∧ y.acc = x.acc) ∨ (y.busy = true ∧ t.rej = .accepted)

theorem ResultKept.of_unchanged : ResultKept x t x := .inl ⟨rfl, rfl, rfl⟩

/-- After a change of context d, context c keeps its result if the change keeps it. -/
theorem exists_resultKept_updateCtx {f : Context → Context} (hx : s.ctxs[c]? = some x)
    (hz : s.ctxs[d]? = some z) (h : d = c → z = x → ResultKept x t (f x)) :
    ∃ y, (s.updateCtx d f).ctxs[c]? = some y ∧ ResultKept x t y := by
  by_cases hd : d = c
  · subst hd
    exact ⟨f x, updateCtx_getElem?_self hx f, h rfl (Option.some.inj (hz.symm.trans hx))⟩
  · exact ⟨x, by rw [updateCtx_getElem?, if_neg hd, hx], .of_unchanged⟩

/-- A context that is idle with nothing in flight keeps its result, unless its `MAC` is accepted or
the core is reset (R231): every other change of a result is one of a busy context. -/
theorem Effect.exists_resultKept (he : Effect s t) (hr : t.resets = s.resets)
    (hx : s.ctxs[c]? = some x) (idle : x.busy = false) (hempty : x.port.infl = .empty) :
    ∃ y, t.ctxs[c]? = some y ∧ ResultKept x t y := by
  have notBusy {z : Context} {P : Prop} (hb : z.busy = true) (hzx : z = x) : P := by
    cases idle.symm.trans (hzx ▸ hb)
  cases he with
  | nothing | replied | rejected | prepareIllegal | prepareStart | keyWrite | deriveSend
  | deriveReceive | deriveFail | providerDerivation => exact ⟨x, hx, .of_unchanged⟩
  | macStart d z _ hz =>
    rw [macStart_eq]
    exact exists_resultKept_updateCtx hx hz fun _ _ => .inr ⟨rfl, rfl⟩
  | msglenWrite d z v hz => exact exists_resultKept_updateCtx hx hz fun _ _ => .inl ⟨rfl, rfl, rfl⟩
  | msgptrWrite d z v hz => exact exists_resultKept_updateCtx hx hz fun _ _ => .inl ⟨rfl, rfl, rfl⟩
  | data8 d z v hz => exact exists_resultKept_updateCtx hx hz fun _ _ => .inl ⟨rfl, rfl, rfl⟩
  | data32 d z v hz => exact exists_resultKept_updateCtx hx hz fun _ _ => .inl ⟨rfl, rfl, rfl⟩
  | tagSend d z hz hb => exact exists_resultKept_updateCtx hx hz fun _ => notBusy hb
  | tagReceive d z b hz hb => exact exists_resultKept_updateCtx hx hz fun _ => notBusy hb
  | tagReceiveLast d z b hz hb =>
    rw [tagReceiveLast_eq]
    exact exists_resultKept_updateCtx hx hz fun _ => notBusy hb
  | tagFail d z b hz hb =>
    rw [tagFail_eq]
    exact exists_resultKept_updateCtx hx hz fun _ => notBusy hb
  | providerContext d z q hz hi =>
    refine exists_resultKept_updateCtx hx hz fun _ hzx => ?_
    rw [hzx, hempty] at hi
    cases hi
  | reset => exact absurd hr (Nat.succ_ne_self _)

/-- A finished context is idle with nothing in flight (R63 d, e). -/
theorem Context.Inv.idle_of_done {cap : Word} (h : x.Inv cap) (hdone : x.done = true) :
    x.busy = false ∧ x.port.infl = .empty := by
  have idle := h.doneIdle hdone
  exact ⟨idle, not_not.mp fun hi => nomatch idle.symm.trans (h.inFlight hi).1⟩

/-- What a step makes of the result of a finished context (R231). -/
theorem step_exists_resultKept (hs : s.Inv) (hx : s.ctxs[c]? = some x) (hdone : x.done = true)
    (h : step s = .next t) :
    (∃ y, t.ctxs[c]? = some y ∧ ResultKept x t y) ∨ ∃ rest, s.input = .reset :: rest := by
  obtain ⟨idle, hempty⟩ := (hs.context hx).idle_of_done hdone
  rcases step_split h with ⟨-, -, rfl⟩ | ⟨rest, hreset, -⟩ | ⟨e, u, -, hu, -, he, hr⟩
  · exact .inl ⟨x, hx, .of_unchanged⟩
  · exact .inr ⟨rest, hreset⟩
  · rw [hu] at he hr
    exact .inl (he.exists_resultKept hr hx idle hempty)

end

/-! ### The obligations -/

/-- Settles O18: the checks of the two commands, in their order. -/
theorem commandChecksInOrder : Obligations.CommandChecksInOrder := by
  rintro s _ v rfl
  rw [perform_cmdWrite]
  cases hd : decode v with
  | error e =>
    rw [command_of_decode_error hd]
    rfl
  | ok i =>
    rw [command_of_decode_ok hd]
    by_cases hf : s.pstate = .fatal
    · rw [exec_fatal i hf]
      cases i <;> simp only [if_pos hf] <;> rfl
    cases i with
    | prepare n =>
      simp only [if_neg hf]
      split_ifs with hu hn
      · rw [exec_prepare_badState hf hu]; rfl
      · rw [exec_prepare_unprepared (not_not.mp hu), if_pos hn]; rfl
      · rw [exec_prepare_unprepared (not_not.mp hu), if_neg hn]; rfl
    | mac c =>
      simp only [if_neg hf]
      split_ifs with hp
      · rw [exec_mac_badState hf hp]; rfl
      replace hp := not_not.mp hp
      cases hx : s.ctxs[c]? with
      | none => rw [exec_mac_badContext hp hx]; rfl
      | some x =>
        dsimp only
        split_ifs with hb hlen
        · rw [exec_mac_contextBusy hp hx hb]; rfl
        · rw [exec_mac_badLength hp hx (Bool.eq_false_iff.mpr hb) hlen]; rfl
        · rw [exec_mac_accepted hp hx (Bool.eq_false_iff.mpr hb) (BitVec.not_lt.mp hlen),
            macStart_eq_set hx]
          rfl

/-- Settles O20: `PREPARE` changes no context, `MAC` only the computation of its own. -/
theorem commandFrame : Obligations.CommandFrame := by
  intro i s t h
  cases i with
  | prepare n =>
    rw [exec_prepare_frame h]
    exact ⟨rfl, rfl, rfl, rfl, rfl, rfl, rfl, rfl, rfl, rfl, rfl, fun _ _ => rfl, nofun,
      fun c x hx => ⟨x, hx, rfl, rfl, rfl, fun _ => rfl, fun _ => rfl⟩⟩
  | mac c =>
    obtain ⟨r, f, rfl, hf⟩ := exec_mac_frame h
    refine ⟨rfl, rfl, rfl, rfl, rfl, updateCtx_nctx _ c f, rfl, rfl, rfl, rfl, rfl, nofun,
      fun _ _ => ⟨rfl, rfl, rfl, rfl⟩, fun d x hx => ?_⟩
    by_cases hd : c = d
    · subst hd
      refine ⟨f x, updateCtx_getElem?_self hx f, ?_⟩
      rw [hf x]
      exact ⟨rfl, rfl, rfl, fun _ => rfl, absurd rfl⟩
    · refine ⟨x, ?_, rfl, rfl, rfl, fun _ => rfl, fun _ => rfl⟩
      rw [updateCtx_getElem?, if_neg hd]
      exact hx

/-- Settles O35: of the effects only an accepted `MAC` of the context and a reset touch the result of
a finished context. -/
theorem resultStaysReadable : Obligations.ResultStaysReadable := by
  intro s t c x hs hx hdone h
  rcases step_exists_resultKept hs hx hdone h with
    ⟨y, hy, ⟨hd, he, ha⟩ | ⟨hb, hrej⟩⟩ | hreset
  · exact .inl ⟨y, hy, hd.trans hdone, he, ha⟩
  · exact .inr (.inl ⟨y, hy, hb, hrej⟩)
  · exact .inr (.inr hreset)

/-- Settles O13: in `UNPREPARED` only the length decides. -/
theorem prepareIllegalLength : Obligations.PrepareIllegalLength := by
  intro s n hp h16 h24 h32
  rw [exec_prepare_unprepared hp, if_neg (by simp [h16, h24, h32])]
  rfl

/-- Settles O14: the derivation starts, and `KEY` is locked outside `UNPREPARED`. -/
theorem prepareLegalLengthStarts : Obligations.PrepareLegalLengthStarts := by
  intro s n hp hn
  refine ⟨prepareStart n s, ?_, rfl, fun k => rfl⟩
  rw [exec_prepare_unprepared hp, if_pos hn]

/-- Settles O15: accepted whatever the length in `UNPREPARED`, rejected in the other three states. -/
theorem prepareAcceptedOnlyUnprepared : Obligations.PrepareAcceptedOnlyUnprepared := by
  intro s n
  refine ⟨fun hp => ⟨_, exec_prepare_unprepared hp, ?_⟩, ?_, exec_fatal _⟩
  · split_ifs <;> rfl
  · rintro (hp | hp) <;> exact exec_prepare_badState (by simp [hp]) (by simp [hp])

/-- Settles O16: the context is busy in the next state, which locks its input registers. -/
theorem macAcceptedStarts : Obligations.MacAcceptedStarts := by
  intro s c x hp hx hb hlen
  have hbusy : (macStart c s).busy c = true := macStart_busy hx
  exact ⟨_, exec_mac_accepted hp hx hb hlen, macStart_eq_set hx, hbusy, hbusy, hbusy, hbusy⟩

/-- Settles O17: each rejection is the first check that holds. -/
theorem macRejectionsChangeOnlyRej : Obligations.MacRejectionsChangeOnlyRej := by
  intro s c
  refine ⟨?_, fun hp hc => exec_mac_badContext hp (List.getElem?_eq_none hc),
    fun _ => exec_mac_contextBusy, fun _ => exec_mac_badLength⟩
  rintro (hp | hp) <;> exact exec_mac_badState (by simp [hp]) (by simp [hp])

end Sys2Proof.Machine
end

section
/-!
Errors (spec/60_exceptions.md): no step stops the machine (R250), which steps write an error field and
what they leave behind (R251, R256, R257), and that `FATAL` is never entered and only reset leaves it
(R258, R259).
-/

namespace Sys2Proof.Machine

section
variable {s t : State} {c d : Nat} {x y : Context}

/-- A step is one effect in the state with its schedule advanced; a quiescent core's is `nothing`. -/
theorem step_scheduled_effect (h : step s = .next t) :
    ∃ input picks, Effect { s with input := input, picks := picks } t := by
  obtain ⟨t', ht, hcases⟩ := step_effect s
  cases h.symm.trans ht
  rcases hcases with ⟨-, -, rfl⟩ | ⟨e, u, hu, -, he⟩
  · exact ⟨_, _, .nothing⟩
  · rw [nextEvent_state hu] at he
    exact ⟨_, _, he⟩

/-! ### The error field of a context -/

/-- What can become of the error field of context `x`: it is kept; or cleared, by an accepted `MAC` or
by reset; or `ProviderFailure` is recorded, which ends the computation (R206, R257). -/
inductive CerrChange (x y : Context) : Prop where
  | kept (h : y.cerr = x.cerr)
  | cleared (h : y.cerr = .noError)
  | failed (h : y.cerr = .providerFailure) (hdone : y.done = true) (idle : y.busy = false)
      (hacc : y.acc = zeroBlock)

/-- When the change of context d is a `CerrChange`, each context afterwards comes from the old one of
its number by a `CerrChange`. -/
theorem exists_cerrChange_updateCtx {f : Context → Context}
    (hy : (s.updateCtx d f).ctxs[c]? = some y) (hf : ∀ x, CerrChange x (f x)) :
    ∃ x, s.ctxs[c]? = some x ∧ CerrChange x y := by
  rw [updateCtx_getElem?] at hy
  split_ifs at hy
  · obtain ⟨x, hx, rfl⟩ := Option.map_eq_some_iff.mp hy
    exact ⟨x, hx, hf x⟩
  · exact ⟨y, hy, .kept rfl⟩

/-- Of all effects only the failure step of a context's session records an error of a context (R206,
R251). -/
theorem Effect.exists_cerrChange (he : Effect s t) (hy : t.ctxs[c]? = some y) :
    ∃ x, s.ctxs[c]? = some x ∧ CerrChange x y := by
  cases he with
  | nothing | replied | rejected | prepareIllegal | prepareStart | keyWrite | deriveSend
  | deriveReceive | deriveFail | providerDerivation => exact ⟨y, hy, .kept rfl⟩
  | msglenWrite | msgptrWrite | data8 | data32 | tagSend | tagReceive | providerContext =>
    exact exists_cerrChange_updateCtx hy fun _ => .kept rfl
  | macStart =>
    rw [macStart_eq] at hy
    exact exists_cerrChange_updateCtx hy fun _ => .cleared rfl
  | tagReceiveLast =>
    rw [tagReceiveLast_eq] at hy
    exact exists_cerrChange_updateCtx hy fun _ => .kept rfl
  | tagFail =>
    rw [tagFail_eq] at hy
    exact exists_cerrChange_updateCtx hy fun _ => .failed rfl rfl rfl rfl
  | reset =>
    obtain ⟨hc, rfl⟩ := afterReset_getElem? (cap := s.msgcap) hy
    exact ⟨s.ctxs[c], List.getElem?_eq_getElem hc, .cleared rfl⟩

/-- What a step makes of the error field of a context. -/
theorem step_exists_cerrChange (h : step s = .next t) (hy : t.ctxs[c]? = some y) :
    ∃ x, s.ctxs[c]? = some x ∧ CerrChange x y := by
  obtain ⟨input, picks, he⟩ := step_scheduled_effect h
  exact he.exists_cerrChange hy

/-! ### The error field of `PREPARE` -/

/-- An effect keeps `PERR` or clears it, or leaves the core UNPREPARED with the subkeys as they were:
the illegal length and the derivation's failure step (R222, R175). -/
theorem Effect.perr_cases (he : Effect s t) :
    t.perr = s.perr ∨ t.perr = .noError ∨
      (t.pstate = .unprepared ∧ t.k1 = s.k1 ∧ t.k2 = s.k2) := by
  cases he with
  | nothing | replied | rejected | keyWrite | macStart | msglenWrite | msgptrWrite | data8 | data32
  | deriveSend | deriveReceive | tagSend | tagReceive | tagReceiveLast | tagFail | providerDerivation
  | providerContext => exact .inl rfl
  | prepareStart | reset => exact .inr (.inl rfl)
  | prepareIllegal hp => exact .inr (.inr ⟨hp, rfl, rfl⟩)
  | deriveFail => exact .inr (.inr ⟨rfl, rfl, rfl⟩)

/-- What a step makes of `PERR`. -/
theorem step_perr_cases (h : step s = .next t) :
    t.perr = s.perr ∨ t.perr = .noError ∨
      (t.pstate = .unprepared ∧ t.k1 = s.k1 ∧ t.k2 = s.k2) := by
  obtain ⟨input, picks, he⟩ := step_scheduled_effect h
  exact he.perr_cases

end

/-! ### The obligations -/

/-- Settles O56: every event has a next state, and so has a quiescent core without input. -/
theorem everyStepGoesOn : Obligations.EveryStepGoesOn := by
  intro s
  obtain ⟨t, ht, -⟩ := step_effect s
  exact ⟨t, ht⟩

/-- Settles O21: no transition of `PSTATE` ends in `FATAL` (R34). -/
theorem fatalIsNeverEntered : Obligations.FatalIsNeverEntered := by
  refine ⟨padlen_aligned, fun s t h hfatal => ?_⟩
  rcases prepStateTransitions s t h with hkept | ⟨-, ht⟩ | ⟨-, ht⟩ | ⟨-, ht, -⟩ | ⟨ht, -⟩
  · exact hkept.symm.trans hfatal
  all_goals cases hfatal.symm.trans ht

/-- Settles O22: `MalformedInput` is one change of its context and `PSTATE`, and of the transitions of
`PSTATE` only reset starts from `FATAL`. -/
theorem malformedInputIsFatal : Obligations.MalformedInputIsFatal := by
  refine ⟨fun s c x hx => ?_, fun s i => exec_fatal i, fun s k hfatal => ?_, fun s t hfatal h => ?_⟩
  · rw [macMalformed_eq]
    exact updateCtx_eq_set _ hx
  · rw [writeLocked, hfatal]
    rfl
  · rcases prepStateTransitions s t h with hkept | ⟨hs, -⟩ | ⟨hs, -⟩ | ⟨hs, -⟩ | hreset
    · exact .inl (hkept.trans hfatal)
    · cases hfatal.symm.trans hs
    · cases hfatal.symm.trans hs
    · cases hfatal.symm.trans hs
    · exact .inr hreset

/-- Settles O50: the one error a step records in a context is `ProviderFailure`. -/
theorem macNeverRaisesInvalidKeyLength : Obligations.MacNeverRaisesInvalidKeyLength := by
  intro s t h hnone y hy herr
  obtain ⟨c, hc⟩ := List.mem_iff_getElem?.mp hy
  obtain ⟨x, hx, hchange⟩ := step_exists_cerrChange h hc
  cases hchange with
  | kept hkept => exact hnone x (List.mem_of_getElem? hx) (hkept.symm.trans herr)
  | cleared hy => cases herr.symm.trans hy
  | failed hy => cases herr.symm.trans hy

/-- Settles O51: a step that records an error has ended the operation, and the error hides the tag. -/
theorem errorsArePrecise : Obligations.ErrorsArePrecise := by
  refine ⟨fun s t c x y h hx hy herr hnew => ?_, fun s t h herr hnew => ?_⟩
  · obtain ⟨x', hx', hchange⟩ := step_exists_cerrChange h hy
    cases hx.symm.trans hx'
    cases hchange with
    | kept hkept => exact absurd hkept hnew
    | cleared hclear => exact absurd hclear herr
    | failed _ hdone idle hacc => exact ⟨hdone, idle, hacc, readReg_tag_of_error hy herr⟩
  · rcases step_perr_cases h with hkept | hclear | hended
    · exact absurd hkept hnew
    · exact absurd hclear herr
    · exact hended

end Sys2Proof.Machine
end

section
/-!
Quiescence (spec/70_reset_and_hazards.md R311): a quiescent core has no work left, so no sequencer or
provider step, each of which lessens the work, is enabled (O57).
-/

namespace Sys2Proof.Machine

section
variable {s t : State}

theorem work_eq_zero_of_quiescent (hq : s.quiescent) : s.work = 0 := by
  obtain ⟨hp, idle⟩ := hq
  have hctxs : (s.ctxs.map contextWork).sum = 0 :=
    List.sum_eq_zero fun n hn => by
      obtain ⟨x, hx, rfl⟩ := List.mem_map.mp hn
      simp [contextWork, idle x hx]
  rw [State.work, if_neg hp, hctxs]

theorem sequencerStep?_eq_none_of_quiescent (hs : s.Inv) (hq : s.quiescent) (x : Session) :
    sequencerStep? x s = none :=
  Option.eq_none_iff_forall_ne_some.mpr fun _ h =>
    Nat.not_lt_zero _ (work_eq_zero_of_quiescent hq ▸ (sequencerStep?_work_lt hs h).1)

theorem providerStep?_eq_none_of_quiescent (hs : s.Inv) (hq : s.quiescent) (x : Session) :
    providerStep? x s = none :=
  Option.eq_none_iff_forall_ne_some.mpr fun _ h =>
    Nat.not_lt_zero _ (work_eq_zero_of_quiescent hq ▸ (providerStep?_work_lt hs h).1)

/-- Without input a quiescent core has no next event (R311). -/
theorem step_of_quiescent (hs : s.Inv) (hq : s.quiescent) (hin : s.input = []) : step s = .next s := by
  obtain ⟨t, ht, ⟨-, -, rfl⟩ | ⟨e, u, hu, -, -⟩⟩ := step_effect s
  · exact ht
  · rcases nextEvent_event hu with ⟨rest, hrest, -⟩ | ⟨-, hmem, -⟩
    · cases hin.symm.trans hrest
    · have he : enabled s e = true := enabled_of_mem hmem
      cases e with
      | host | reset => cases he
      | sequencer x => simp [enabled, sequencerStep?_eq_none_of_quiescent hs hq x] at he
      | provider x => simp [enabled, providerStep?_eq_none_of_quiescent hs hq x] at he

end

/-- Settles O57: an enabled step would lessen the work, of which a quiescent core has none; a core that
is preparing or has a busy context has a step by the invariant. -/
theorem quiescentIffNothingEnabled : Obligations.QuiescentIffNothingEnabled := by
  intro s hs
  refine ⟨fun hq => ⟨fun x => ?_, step_of_quiescent hs hq⟩, enabledEvents_ne_nil hs⟩
  exact ⟨sequencerStep?_eq_none_of_quiescent hs hq x, providerStep?_eq_none_of_quiescent hs hq x⟩

end Sys2Proof.Machine
end

section
/-!
Noninterference (spec/70_reset_and_hazards.md R306): two states that differ in their secrets alone take
steps that differ in their secrets alone, agent by agent, and tell the host the same unless it reads a
tag (O59).
-/

namespace Sys2Proof.Machine

section
variable {told : Prop} {s t : State} {x y : Context} {p p' : Port} {n c : Nat}

/-! ### What a public view still shows -/

@[simp] theorem publicView_nctx (s : State) : s.publicView.nctx = s.nctx := by
  simp [State.nctx, State.publicView]

theorem publicView_getElem? (s : State) (c : Nat) :
    s.publicView.ctxs[c]? = (s.ctxs[c]?).map Context.publicView := List.getElem?_map

theorem publicView_busy (s : State) (c : Nat) : s.publicView.busy c = s.busy c := by
  unfold State.busy
  rw [publicView_getElem?]
  cases s.ctxs[c]? <;> rfl

theorem publicView_writeLocked (r : HostReg) (s : State) :
    writeLocked r s.publicView = writeLocked r s := by
  cases r with
  | msglen c | msgptr c | msgdata8 c | msgdata32 c => exact publicView_busy s c
  | key | id | cfgNctx | cfgMsgcap | cmd | rej | pstat | cstat | tag => rfl

theorem publicView_ofContext (s : State) (c : Nat) {f : Context → Word}
    (hf : ∀ x, f x.publicView = f x) : ofContext s.publicView c f = ofContext s c f := by
  unfold ofContext
  rw [publicView_getElem?]
  cases s.ctxs[c]? with
  | none => rfl
  | some x => exact hf x

/-- Every register but a tag reads as a public value (R306). -/
theorem publicView_readReg {r : HostReg} (hr : ∀ c k, r ≠ .tag c k) (s : State) :
    readReg r s.publicView = readReg r s := by
  cases r with
  | cfgNctx => exact congrArg (BitVec.ofNat 32) (publicView_nctx s)
  | cstat c | msglen c | msgptr c => exact publicView_ofContext s c fun _ => rfl
  | tag c k => exact absurd rfl (hr c k)
  | id | cfgMsgcap | cmd | rej | pstat | key | msgdata8 | msgdata32 => rfl

/-- The kind of beat in a slot, and whether a response failed, are public. -/
theorem infl_cases_of_publicView_eq (h : p.publicView = p'.publicView) :
    (p.infl = .empty ∧ p'.infl = .empty) ∨
    (∃ q q', p.infl = .request q ∧ p'.infl = .request q') ∨
    ∃ err b b', p.infl = .response err b ∧ p'.infl = .response err b' := by
  have hinfl := congrArg Port.infl h
  unfold Port.publicView at hinfl
  cases hp : p.infl <;> cases hp' : p'.infl <;> rw [hp, hp'] at hinfl
  case empty.empty => exact .inl ⟨rfl, rfl⟩
  case request.request q q' => exact .inr (.inl ⟨q, q', rfl, rfl⟩)
  case response.response err b err' b' =>
    obtain rfl : err = err' := (Slot.response.inj hinfl).1
    exact .inr (.inr ⟨err, b, b', rfl, rfl⟩)
  all_goals cases hinfl

/-- What is public of the provider's answer is its failure draw (R104, R306). -/
theorem providerAnswer_publicView (n : Nat) (p : Port) (q : Request) :
    (providerAnswer n p q).publicView =
      { infl := .response (Config.providerFails n) zeroBlock, cv := zeroBlock } := by
  unfold providerAnswer
  cases Config.providerFails n <;> rfl

/-- The public part of a change of a context is the change of the public part. -/
theorem publicView_updateCtx {f F : Context → Context}
    (hf : ∀ x, (f x).publicView = F x.publicView) :
    (s.updateCtx c f).publicView = s.publicView.updateCtx c F := by
  have hctxs : (s.ctxs.modify c f).map Context.publicView =
      (s.ctxs.map Context.publicView).modify c F := by
    apply List.ext_getElem?
    intro d
    simp only [List.getElem?_map, List.getElem?_modify]
    by_cases hd : c = d <;> cases s.ctxs[d]? <;> simp [hd, hf]
  simp only [State.publicView, updateCtx_nctx]
  rw [updateCtx_ctxs, hctxs]
  rfl

/-! ### Public events -/

/-- What is public of an access's operation: `reg` is the register at its offset, if there is one. -/
def AccessOp.publicView (reg : Option HostReg) (op : AccessOp) : AccessOp :=
  match reg, op with
  | some r, .write v => .write (if r.secret then 0#32 else v)
  | _, op => op

theorem publicView_host (n : Nat) (a : HostAccess) :
    Event.publicView n (.host a) =
      .host { a with op := a.op.publicView (regAt n a.addr.toNat) } := by
  obtain ⟨width, addr, op⟩ := a
  unfold Event.publicView
  dsimp only
  cases regAt n addr.toNat <;> cases op <;> rfl

theorem exists_host_of_publicView_eq {a : HostAccess} {e : Event}
    (h : Event.publicView n (.host a) = e.publicView n) : ∃ b, e = .host b := by
  rw [publicView_host] at h
  cases e with
  | host b => exact ⟨b, rfl⟩
  | sequencer | provider | reset => cases h

/-- An event that is no host access is public. -/
theorem eq_of_publicView_eq {e e' : Event} (h : e.publicView n = e'.publicView n)
    (he : ∀ a, e ≠ .host a) : e = e' := by
  cases e' with
  | host b =>
    obtain ⟨a, rfl⟩ := exists_host_of_publicView_eq h.symm
    exact absurd rfl (he a)
  | sequencer | provider | reset =>
    cases e with
    | host a => exact absurd rfl (he a)
    | sequencer | provider | reset => exact h

/-- Accesses with the same public view are of one width and offset, and both reads, or both writes: of
the same value, unless a secret register or none is written. -/
theorem access_of_publicView_eq {a b : HostAccess}
    (h : Event.publicView n (.host a) = Event.publicView n (.host b)) :
    a.width = b.width ∧ a.addr = b.addr ∧
      ((a.op = .read ∧ b.op = .read) ∨
        ∃ v w, a.op = .write v ∧ b.op = .write w ∧
          ∀ r, regAt n a.addr.toNat = some r → r.secret = false → v = w) := by
  rw [publicView_host, publicView_host] at h
  injection h with h
  injection h with hw ha hop
  refine ⟨hw, ha, ?_⟩
  rw [← ha] at hop
  cases hoa : a.op <;> cases hob : b.op <;> rw [hoa, hob] at hop
  case read.read => exact .inl ⟨rfl, rfl⟩
  case write.write v w =>
    refine .inr ⟨v, w, rfl, rfl, fun r hr hsecret => ?_⟩
    simpa [AccessOp.publicView, hr, hsecret] using hop
  all_goals cases hr : regAt n a.addr.toNat <;> rw [hr] at hop <;> cases hop

/-! ### States that differ in their secrets -/

/-- The two states differ in their secrets alone; where `told` holds, the host was told the same. Every
operation keeps it for one `told`: only a read of a tag asks that `told` does not hold. -/
structure State.SamePublic (told : Prop) (s t : State) : Prop where
  view : s.publicView = t.publicView
  reply : told → s.reply = t.reply

/-- Both outcomes are next states that differ in their secrets alone. -/
inductive SamePublicNext (told : Prop) :
    Host.Outcome State Fault Refusal → Host.Outcome State Fault Refusal → Prop where
  | next {s t : State} (h : s.SamePublic told t) : SamePublicNext told (.next s) (.next t)

theorem SamePublicNext.exists_next {o p : Host.Outcome State Fault Refusal}
    (h : SamePublicNext told o p) :
    ∃ s t, o = .next s ∧ p = .next t ∧ s.SamePublic told t := by
  cases h with
  | next h => exact ⟨_, _, rfl, rfl, h⟩

namespace State.SamePublic
variable (h : s.SamePublic told t)
include h

theorem nctx : s.nctx = t.nctx := by rw [← publicView_nctx s, h.view, publicView_nctx]

/-- A context exists in both states or in none, and is the same but for its secrets. -/
theorem context_cases (c : Nat) :
    (s.ctxs[c]? = none ∧ t.ctxs[c]? = none) ∨
      ∃ x y, s.ctxs[c]? = some x ∧ t.ctxs[c]? = some y ∧ x.publicView = y.publicView := by
  have hc : (s.ctxs[c]?).map Context.publicView = (t.ctxs[c]?).map Context.publicView := by
    rw [← publicView_getElem?, h.view, publicView_getElem?]
  cases hs : s.ctxs[c]? <;> cases ht : t.ctxs[c]? <;> rw [hs, ht] at hc
  case none.none => exact .inl ⟨rfl, rfl⟩
  case some.some x y => exact .inr ⟨x, y, rfl, rfl, Option.some.inj hc⟩
  all_goals cases hc

/-- A change of a context whose public part is a function of the context's public part. -/
theorem updateCtx (c : Nat) {f g F : Context → Context} (hf : ∀ x, (f x).publicView = F x.publicView)
    (hg : ∀ x, (g x).publicView = F x.publicView) :
    (s.updateCtx c f).SamePublic told (t.updateCtx c g) :=
  ⟨by rw [publicView_updateCtx hf, publicView_updateCtx hg, h.view], h.reply⟩

theorem updateCtx_self (c : Nat) {f : Context → Context}
    (hf : ∀ x, (f x).publicView = f x.publicView) :
    (s.updateCtx c f).SamePublic told (t.updateCtx c f) := h.updateCtx c hf hf

/-- The two answers differ in their data alone, and not even there if the host must be told the same. -/
theorem setReply {r r' : Reply} (hview : r.publicView = r'.publicView) (htold : told → r = r') :
    (setReply r s).SamePublic told (setReply r' t) := by
  refine ⟨?_, fun ht => congrArg some (htold ht)⟩
  have hset := congrArg (fun v : State => { v with reply := some r.publicView }) h.view
  exact hset.trans (by rw [hview]; rfl)

theorem reject (r : Rejection) : (reject r s).SamePublic told (reject r t) :=
  ⟨congrArg (Machine.reject r) h.view, h.reply⟩

theorem prepareIllegal : (prepareIllegal s).SamePublic told (prepareIllegal t) :=
  ⟨congrArg Machine.prepareIllegal h.view, h.reply⟩

theorem prepareStart (n : Nat) : (prepareStart n s).SamePublic told (prepareStart n t) :=
  ⟨congrArg (Machine.prepareStart n) h.view, h.reply⟩

theorem accept : (accept s).SamePublic told (accept t) :=
  ⟨congrArg Machine.accept h.view, h.reply⟩

theorem macStart (c : Nat) : (macStart c s).SamePublic told (macStart c t) := by
  rw [macStart_eq, macStart_eq]
  exact h.accept.updateCtx_self c fun _ => rfl

/-! ### The host -/

theorem writeLocked (r : HostReg) : writeLocked r s = writeLocked r t := by
  rw [← publicView_writeLocked r s, h.view, publicView_writeLocked]

theorem readReg {r : HostReg} (hr : ∀ c k, r ≠ .tag c k) : readReg r s = readReg r t := by
  rw [← publicView_readReg hr s, h.view, publicView_readReg hr]

theorem exec (i : Instr) : SamePublicNext told (exec i s) (exec i t) := by
  have hp : s.pstate = t.pstate := (congrArg State.pstate h.view :)
  cases i with
  | prepare n =>
    simp only [Machine.exec, execPrepare, ← hp]
    split_ifs
    · exact .next (h.reject _)
    · exact .next (h.reject _)
    · exact .next (h.prepareStart n)
    · exact .next h.prepareIllegal
  | mac c =>
    have hcap : s.msgcap = t.msgcap := (congrArg State.msgcap h.view :)
    simp only [Machine.exec, execMac, ← hp]
    split_ifs
    · exact .next (h.reject _)
    · exact .next (h.reject _)
    · rcases h.context_cases c with ⟨hs, ht⟩ | ⟨x, y, hs, ht, hxy⟩
      · simp only [hs, ht]
        exact .next (h.reject _)
      · have hb : x.busy = y.busy := (congrArg Context.busy hxy :)
        have hlen : x.msglen = y.msglen := (congrArg Context.msglen hxy :)
        have haligned : aligned y.msglen.toNat = true := by simp [aligned, padlen_aligned]
        simp only [hs, ht, hb, hlen, ← hcap, haligned, if_true]
        split_ifs
        · exact .next (h.reject _)
        · exact .next (h.reject _)
        · exact .next (h.macStart c)

theorem command (v : Word) : SamePublicNext told (command v s) (command v t) := by
  unfold Machine.command
  cases decode v with
  | error e => exact .next (h.reject _)
  | ok i => exact h.exec i

/-- What a write leaves public depends on the written value only where the register is not secret. -/
theorem writeReg {r : HostReg} {v w : Word} (hvw : r.secret = false → v = w) :
    SamePublicNext told (writeReg r v s) (writeReg r w t) := by
  cases r with
  | cmd => cases hvw rfl; exact h.command v
  | key k => exact .next ⟨h.view, h.reply⟩
  | msglen c | msgptr c =>
    cases hvw rfl
    exact .next (h.updateCtx_self c fun _ => rfl)
  | msgdata8 c =>
    exact .next (h.updateCtx c (F := fun x => { x with msgptr := x.msgptr + 1#32 })
      (fun _ => rfl) (fun _ => rfl))
  | msgdata32 c =>
    exact .next (h.updateCtx c (F := fun x => { x with msgptr := x.msgptr + 4#32 })
      (fun _ => rfl) (fun _ => rfl))
  | id | cfgNctx | cfgMsgcap | rej | pstat | cstat | tag => exact .next h

/-- An access has the same public effect on both states, and is answered alike unless it reads a tag. -/
theorem hostAccess {a b : HostAccess}
    (hab : Event.publicView s.nctx (.host a) = Event.publicView s.nctx (.host b))
    (htag : told → ∀ c k, addressed a s = some (.tag c k) → a.op ≠ .read) :
    SamePublicNext told (hostAccess a s) (hostAccess b t) := by
  obtain ⟨hw, ha, hop⟩ := access_of_publicView_eq hab
  have hreg : addressed b t = addressed a s := by simp only [addressed, hw, ha, h.nctx]
  cases hr : addressed a s with
  | none =>
    rw [hr] at hreg
    rw [hostAccess_refused hr, hostAccess_refused hreg]
    rcases hop with ⟨hoa, hob⟩ | ⟨v, w, hoa, hob, -⟩
    · rw [hoa, hob]
      exact .next (h.setReply rfl fun _ => rfl)
    · rw [hoa, hob]
      exact .next (h.setReply rfl fun _ => rfl)
  | some r =>
    rw [hr] at hreg
    rcases hop with ⟨hoa, hob⟩ | ⟨v, w, hoa, hob, hvw⟩
    · rw [hostAccess_read hr hoa, hostAccess_read hreg hob]
      refine .next (h.setReply rfl fun ht => ?_)
      rw [h.readReg fun c k hrtag => htag ht c k (hr.trans (congrArg some hrtag)) hoa]
    · obtain ⟨-, -, hat⟩ := addressed_regAt hr
      cases hl : Machine.writeLocked r s with
      | true =>
        rw [hostAccess_locked hr hoa hl, hostAccess_locked hreg hob (h.writeLocked r ▸ hl)]
        exact .next (h.setReply rfl fun _ => rfl)
      | false =>
        obtain ⟨u, v, hu, hv, huv⟩ := (h.writeReg (hvw r hat)).exists_next
        rw [hostAccess_write hr hoa hl, hostAccess_write hreg hob (h.writeLocked r ▸ hl), hu, hv]
        exact .next (huv.setReply rfl fun _ => rfl)

/-! ### Sequencer and provider -/

theorem deriveSend : (deriveSend s).SamePublic told (deriveSend t) :=
  ⟨(congrArg (fun v : State =>
    { Machine.deriveSend v with drv := (Machine.deriveSend v).drv.publicView }) h.view :), h.reply⟩

theorem deriveReceive (b b' : Block) : (deriveReceive b s).SamePublic told (deriveReceive b' t) :=
  ⟨(congrArg (fun v : State =>
    { Machine.deriveReceive b v with k1 := zeroBlock, k2 := zeroBlock }) h.view :), h.reply⟩

theorem deriveFail : (deriveFail s).SamePublic told (deriveFail t) :=
  ⟨congrArg Machine.deriveFail h.view, h.reply⟩

theorem tagSend (c : Nat) (hsent : x.sent = y.sent) (hnblk : x.nblk = y.nblk) :
    (tagSend s c x).SamePublic told (tagSend t c y) := by
  have hkeylen : s.keylen = t.keylen := (congrArg State.keylen h.view :)
  refine h.updateCtx c (F := fun z =>
    { z with port := (z.port.setSlot (.request (s.tagRequest c x))).publicView, sent := x.sent + 1#32 })
    (fun _ => rfl) fun z => ?_
  simp only [Context.publicView, Port.publicView, Port.setSlot, State.tagRequest, hsent, hnblk, hkeylen]

theorem tagReceive (c : Nat) (b b' : Block) : (tagReceive s c b).SamePublic told (tagReceive t c b') :=
  h.updateCtx c
    (F := fun z => { z with port := z.port.setSlot .empty, acc := zeroBlock, rcvd := z.rcvd + 1#32 })
    (fun _ => rfl) (fun _ => rfl)

theorem tagReceiveLast (c : Nat) (b b' : Block) :
    (tagReceiveLast s c b).SamePublic told (tagReceiveLast t c b') :=
  (h.tagReceive c b b').updateCtx_self c fun _ => rfl

theorem tagFail (c : Nat) : (tagFail s c).SamePublic told (tagFail t c) := by
  rw [tagFail_eq, tagFail_eq]
  exact h.updateCtx_self c fun _ => rfl

/-- Which step of the derivation is enabled depends on `PSTATE`, `DSENT` and the kind of beat in flight
(R171, R174, R175). -/
theorem deriveStep? : Option.Rel (State.SamePublic told) (deriveStep? s) (deriveStep? t) := by
  have hp : s.pstate = t.pstate := (congrArg State.pstate h.view :)
  have hd : s.dsent = t.dsent := (congrArg State.dsent h.view :)
  have hdrv : s.drv.publicView = t.drv.publicView := (congrArg State.drv h.view :)
  simp only [Machine.deriveStep?, ← hp, ← hd]
  split_ifs
  · rcases infl_cases_of_publicView_eq hdrv with ⟨hs, ht⟩ | ⟨q, q', hs, ht⟩ | ⟨err, b, b', hs, ht⟩
    · rw [hs, ht]
      cases s.dsent with
      | false => exact .some h.deriveSend
      | true => exact .none
    · rw [hs, ht]
      cases s.dsent <;> exact .none
    · rw [hs, ht]
      cases s.dsent with
      | false => cases err <;> exact .none
      | true =>
        cases err with
        | false => exact .some (h.deriveReceive b b')
        | true => exact .some h.deriveFail
  · exact .none

/-- Which step of a context is enabled depends on its counters and the kind of beat in flight (R203
to R206). -/
theorem tagStep? (c : Nat) : Option.Rel (State.SamePublic told) (tagStep? c s) (tagStep? c t) := by
  rcases h.context_cases c with ⟨hs, ht⟩ | ⟨x, y, hs, ht, hxy⟩
  · simp only [Machine.tagStep?, hs, ht]
    exact .none
  have hb : x.busy = y.busy := (congrArg Context.busy hxy :)
  have hsent : x.sent = y.sent := (congrArg Context.sent hxy :)
  have hrcvd : x.rcvd = y.rcvd := (congrArg Context.rcvd hxy :)
  have hnblk : x.nblk = y.nblk := (congrArg Context.nblk hxy :)
  have hport : x.port.publicView = y.port.publicView := (congrArg Context.port hxy :)
  by_cases hbusy : x.busy = true
  · simp only [Machine.tagStep?, hs, ht, ← hb, if_pos hbusy]
    rcases infl_cases_of_publicView_eq hport with ⟨hi, hj⟩ | ⟨q, q', hi, hj⟩ | ⟨err, b, b', hi, hj⟩
    · simp only [hi, hj, ← hsent, ← hrcvd, ← hnblk]
      split_ifs
      · exact .some (h.tagSend c hsent hnblk)
      · exact .none
    · simp only [hi, hj]
      exact .none
    · simp only [hi, hj, ← hrcvd, ← hnblk]
      cases err with
      | true => exact .some (h.tagFail c)
      | false =>
        dsimp only
        split_ifs
        · exact .some (h.tagReceive c b b')
        · exact .some (h.tagReceiveLast c b b')
        · exact .none
  · simp only [Machine.tagStep?, hs, ht, ← hb, if_neg hbusy]
    exact .none

theorem sequencerStep? (x : Session) :
    Option.Rel (State.SamePublic told) (sequencerStep? x s) (sequencerStep? x t) := by
  cases x with
  | derivation => exact h.deriveStep?
  | context c => exact h.tagStep? c

theorem port_cases (x : Session) :
    (s.port? x = none ∧ t.port? x = none) ∨
      ∃ p p', s.port? x = some p ∧ t.port? x = some p' ∧ p.publicView = p'.publicView := by
  cases x with
  | derivation => exact .inr ⟨s.drv, t.drv, rfl, rfl, (congrArg State.drv h.view :)⟩
  | context c =>
    rcases h.context_cases c with ⟨hs, ht⟩ | ⟨x, y, hs, ht, hxy⟩
    · simp [State.port?, hs, ht]
    · exact .inr ⟨x.port, y.port, by simp [State.port?, hs], by simp [State.port?, ht],
        (congrArg Context.port hxy :)⟩

theorem setPort (x : Session) (hp : p.publicView = p'.publicView) :
    (s.setPort x p).SamePublic told (t.setPort x p') := by
  cases x with
  | derivation =>
    refine ⟨?_, h.reply⟩
    have hset := (congrArg (fun v : State => { v with drv := p.publicView }) h.view :)
    exact hset.trans (by rw [hp]; rfl)
  | context c =>
    exact h.updateCtx c (F := fun z => { z with port := p.publicView }) (fun _ => rfl)
      fun z => by rw [hp]; rfl

theorem withDraws (n : Nat) :
    ({ s with draws := n } : State).SamePublic told { t with draws := n } :=
  ⟨(congrArg (fun v : State => { v with draws := n }) h.view :), h.reply⟩

/-- The provider answers a beat whatever Block it carries (R102). -/
theorem providerStep? (x : Session) :
    Option.Rel (State.SamePublic told) (providerStep? x s) (providerStep? x t) := by
  rcases h.port_cases x with ⟨hs, ht⟩ | ⟨p, p', hs, ht, hp⟩
  · simp only [Machine.providerStep?, hs, ht]
    exact .none
  · simp only [Machine.providerStep?, hs, ht]
    rcases infl_cases_of_publicView_eq hp with ⟨hi, hj⟩ | ⟨q, q', hi, hj⟩ | ⟨err, b, b', hi, hj⟩
    · simp only [hi, hj]
      exact .none
    · simp only [hi, hj]
      have hdraws : s.draws = t.draws := (congrArg State.draws h.view :)
      rw [← hdraws]
      refine .some ((h.setPort x ?_).withDraws _)
      rw [providerAnswer_publicView, providerAnswer_publicView]
    · simp only [hi, hj]
      exact .none

/-! ### Every event -/

theorem enabled (e : Event) : enabled s e = enabled t e := by
  have isSome_eq {o p : Option State} (ho : Option.Rel (State.SamePublic told) o p) :
      o.isSome = p.isSome := by cases ho <;> rfl
  cases e with
  | host | reset => rfl
  | sequencer x => exact isSome_eq (h.sequencerStep? x)
  | provider x => exact isSome_eq (h.providerStep? x)

theorem enabledEvents : enabledEvents s = enabledEvents t := by
  have henabled : Machine.enabled s = Machine.enabled t := funext h.enabled
  rw [Machine.enabledEvents, Machine.enabledEvents, State.sessions, State.sessions, h.nctx, henabled]

/-- Reset keeps nothing but the parameters, the schedule and the model's counters (R62, R290). -/
theorem resetStep : (resetStep s).SamePublic told (resetStep t) := by
  have view (s : State) : (Machine.resetStep s).publicView =
      { (State.afterReset s.nctx s.msgcap (s.resets + 1)).publicView with
        input := s.publicView.input, draws := s.publicView.draws, picks := s.publicView.picks } := by
    simp only [State.publicView, resetStep_nctx]
    rfl
  have hcap : s.msgcap = t.msgcap := (congrArg State.msgcap h.view :)
  have hresets : s.resets = t.resets := (congrArg State.resets h.view :)
  exact ⟨by rw [view, view, h.view, h.nctx, hcap, hresets], fun _ => rfl⟩

theorem getD {o p : Option State} (ho : Option.Rel (State.SamePublic told) o p) :
    (o.getD s).SamePublic told (p.getD t) := by
  cases ho with
  | some hst => exact hst
  | none => exact h

/-- An event has the same public effect on both states, and tells the host the same unless it reads a
tag. -/
theorem perform {e e' : Event} (he : e.publicView s.nctx = e'.publicView s.nctx)
    (htag : told → ∀ a c k, e = .host a → addressed a s = some (.tag c k) → a.op ≠ .read) :
    SamePublicNext told (perform e s) (perform e' t) := by
  cases e with
  | host a =>
    obtain ⟨b, rfl⟩ := exists_host_of_publicView_eq he
    exact h.hostAccess he fun ht c k => htag ht a c k rfl
  | sequencer x =>
    obtain rfl := eq_of_publicView_eq he nofun
    exact .next (h.getD (h.sequencerStep? x))
  | provider x =>
    obtain rfl := eq_of_publicView_eq he nofun
    exact .next (h.getD (h.providerStep? x))
  | reset =>
    obtain rfl := eq_of_publicView_eq he nofun
    exact .next h.resetStep

theorem withSchedule {l l' : List Event} {k k' : Nat}
    (hl : l.map (Event.publicView s.nctx) = l'.map (Event.publicView s.nctx)) (hk : k = k') :
    ({ s with input := l, picks := k } : State).SamePublic told { t with input := l', picks := k' } := by
  refine ⟨?_, h.reply⟩
  have hset := (congrArg (fun v : State =>
    { v with input := l.map (Event.publicView s.nctx), picks := k }) h.view :)
  exact hset.trans (by rw [hl, hk, h.nctx]; rfl)

/-- The same event but for its secrets comes next in both states, or none does. -/
theorem nextEvent_cases :
    (nextEvent s = none ∧ nextEvent t = none) ∨
      ∃ e e' u v, nextEvent s = some (e, u) ∧ nextEvent t = some (e', v) ∧
        u.SamePublic told v ∧ e.publicView u.nctx = e'.publicView u.nctx := by
  have hpicks : s.picks = t.picks := (congrArg State.picks h.view :)
  have hin : s.input.map (Event.publicView s.nctx) = t.input.map (Event.publicView s.nctx) := by
    have hview := (congrArg State.input h.view :)
    exact hview.trans (by rw [h.nctx]; rfl)
  unfold nextEvent
  cases hs : s.input with
  | nil =>
    have ht : t.input = [] := List.map_eq_nil_iff.mp (by rw [← hin, hs, List.map_nil])
    rw [ht, ← hpicks, ← h.enabledEvents]
    dsimp only
    split
    · exact .inl ⟨rfl, rfl⟩
    · exact .inr ⟨_, _, _, _, rfl, rfl, h, rfl⟩
    · exact .inr ⟨_, _, _, _, rfl, rfl, h.withSchedule rfl rfl, rfl⟩
  | cons e rest =>
    rw [hs, List.map_cons] at hin
    obtain ⟨e', rest', ht, he, hrest⟩ := List.map_eq_cons_iff.mp hin.symm
    rw [ht]
    exact .inr ⟨_, _, _, _, rfl, rfl, h.withSchedule hrest.symm hpicks, he.symm⟩

end State.SamePublic

/-- A host access that comes next reads a `TAG` register only where `readsTag` says so. -/
theorem op_ne_read_of_readsTag_eq_false {e : Event} {u : State} {a : HostAccess} {k : Nat}
    (h : nextEvent s = some (e, u)) (hread : readsTag s = false) (he : e = .host a)
    (hreg : addressed a u = some (.tag c k)) : a.op ≠ .read := by
  subst he
  intro hop
  rcases nextEvent_event h with ⟨rest, hin, rfl⟩ | ⟨-, hmem, -⟩
  · have hreg' : addressed a s = some (.tag c k) := hreg
    simp [readsTag, hin, hreg', hop] at hread
  · exact nomatch enabled_of_mem hmem

/-- One step: states that differ in their secrets alone step to two such states. -/
theorem State.SamePublic.step (h : s.SamePublic told t) (hread : told → readsTag s = false) :
    SamePublicNext told (step s) (step t) := by
  unfold Machine.step
  rcases h.nextEvent_cases with ⟨hs, ht⟩ | ⟨e, e', u, v, hs, ht, huv, he⟩
  · rw [hs, ht]
    exact .next h
  · rw [hs, ht]
    exact huv.perform he fun htold a c k => op_ne_read_of_readsTag_eq_false hs (hread htold)

end

/-- Settles O59: every step keeps that two states differ in their secrets alone, for a host that was
told the same and does not read a tag next. -/
theorem secretsDoNotShow : Obligations.SecretsDoNotShow := by
  intro s t hview
  have h : s.SamePublic (s.reply = t.reply ∧ readsTag s = false) t := ⟨hview, And.left⟩
  obtain ⟨s', t', hs, ht, h'⟩ := (h.step And.right).exists_next
  exact ⟨s', t', hs, ht, h'.view, fun heq hread => h'.reply ⟨heq, hread⟩⟩

end Sys2Proof.Machine
end
